-- ==== Sys2Proof/Word.lean ====
section
/-! DEFINITION. The word types of the block: the sample, the symbol code, the assembled byte and the CRC register. -/

namespace Sys2Proof

/-- A sample is a `SAMPLE_W`-bit unsigned code (R45). No rule adds, shifts or masks a sample: it is compared for
equality only, so it is held as the number of its code. That the number fits `SAMPLE_W` bits is checked where samples enter
(`Instr.wf`) and kept by `Memory.wf`. -/
abbrev Sample := Nat

/-- A data-symbol code: `CODE_W = 2` bits, bit 1 the more significant (R7, R36, R51). -/
abbrev Code := BitVec 2

/-- A byte assembled from four symbols (R36). -/
abbrev Byte := BitVec 8

/-- The CRC register: 16 bits, the only value whose arithmetic drops bits (R11, R70). -/
abbrev CrcWord := BitVec 16

end Sys2Proof
end

