-- ==== Sys2Proof/Config.lean ====
section
/-! DEFINITION. The implementation parameters of R7: the constants, the parameters the spec leaves OPEN, the default values of
R7 and R50, and the well-formedness of an instance (R7, R8). -/

namespace Sys2Proof

/-! ### The constants of R7 -/

/-- `FRAME_LEN`: samples in a Preamble or Data pattern, and the loop's look-ahead. -/
@[simp] abbrev frameLen : Nat := 8
/-- `EOF_LEN`: samples in the EOF pattern. -/
@[simp] abbrev eofLen : Nat := 4
/-- `TAIL_MAX = FRAME_LEN − 1`: capacity of the carry-over tail. -/
@[simp] abbrev tailMax : Nat := 7
/-- `MIN_SYMS`: the smallest symbol count for which the layout of R81 fits. -/
@[simp] abbrev minSyms : Nat := 16
/-- `CRC_SEED`. -/
abbrev crcSeed : CrcWord := 0xFFFF#16
/-- `CRC_POLY`, the reflected polynomial. -/
abbrev crcPoly : CrcWord := 0x8408#16
/-- `CRC_RESIDUE`, the register value of a good frame. -/
abbrev crcResidue : CrcWord := 0xF0B8#16

/-! ### The OPEN parameters of R7 -/

/-- `CATALOG`: the six pattern literals (R49). -/
structure Catalog where
  /-- `PAT_PRE` -/
  pre : List Sample
  /-- `PAT_EOF` -/
  eof : List Sample
  /-- `PAT_D[0]` -/
  d00 : List Sample
  /-- `PAT_D[1]` -/
  d01 : List Sample
  /-- `PAT_D[2]` -/
  d10 : List Sample
  /-- `PAT_D[3]` -/
  d11 : List Sample
  deriving DecidableEq, Repr

/-- `PAT_D[k]`, the Data pattern whose code is `k` (R51). -/
def Catalog.data (c : Catalog) (k : Code) : List Sample :=
  if k = 0#2 then c.d00 else if k = 1#2 then c.d01 else if k = 2#2 then c.d10 else c.d11

/-- The parameters R7 marks OPEN: fixed when an instance is built and never changed while it runs. -/
structure Config where
  /-- `SAMPLE_W`: bits in a sample code -/
  sampleW : Nat
  /-- `S_HI` -/
  sHi : Sample
  /-- `S_LO` -/
  sLo : Sample
  /-- `CATALOG` -/
  catalog : Catalog
  /-- `FRAME_CAP`: frame-buffer capacity in symbols -/
  frameCap : Nat
  /-- `CHUNK_MAX`: largest chunk length in samples -/
  chunkMax : Nat
  deriving DecidableEq, Repr

/-- One Data pattern of a well-formed catalog: eight samples, each `S_HI` or `S_LO`, exactly one of them `S_LO` (R8 (a), (b), (c)). -/
def dataPatternWf (hi lo : Sample) (p : List Sample) : Bool :=
  p.length == frameLen && p.all (fun x => x == hi || x == lo) && p.count lo == 1

/-- R8: the four conditions (a) to (d) of a well-formed catalog. -/
def Catalog.wf (hi lo : Sample) (c : Catalog) : Bool :=
  c.pre.length == frameLen && c.pre.all (fun x => x == hi || x == lo) &&
  c.eof.length == eofLen && c.eof.all (fun x => x == hi || x == lo) &&
  dataPatternWf hi lo c.d00 && dataPatternWf hi lo c.d01 && dataPatternWf hi lo c.d10 && dataPatternWf hi lo c.d11 &&
  c.d00 != c.d01 && c.d00 != c.d10 && c.d00 != c.d11 && c.d01 != c.d10 && c.d01 != c.d11 && c.d10 != c.d11

/-- R8 (e), which the spec does not require: `PAT_EOF` is not the first four samples of a Data pattern. -/
def Catalog.eofApart (c : Catalog) : Bool :=
  c.eof != c.d00.take eofLen && c.eof != c.d01.take eofLen && c.eof != c.d10.take eofLen && c.eof != c.d11.take eofLen

/-- R8 (f), which the spec does not require: `PAT_PRE` differs from every Data pattern. -/
def Catalog.preApart (c : Catalog) : Bool :=
  c.pre != c.d00 && c.pre != c.d01 && c.pre != c.d10 && c.pre != c.d11

/-- A well-formed instance: two different sample codes of `SAMPLE_W` bits, a well-formed catalog, `FRAME_CAP ≥ 1` (R7, R8). -/
def Config.wf (g : Config) : Bool :=
  g.sHi != g.sLo && decide (g.sHi < 2 ^ g.sampleW) && decide (g.sLo < 2 ^ g.sampleW) &&
  decide (1 ≤ g.frameCap) && g.catalog.wf g.sHi g.sLo

/-- The default catalog of R50, `s0` first, 1 for `S_HI` and 0 for `S_LO`. PRESUMED by the spec itself (general knowledge, G1);
unsafe for a claim that names concrete samples (log entry 2). -/
def Catalog.default : Catalog where
  pre := [0, 1, 1, 1, 1, 0, 1, 1]
  eof := [1, 1, 0, 1]
  d00 := [1, 0, 1, 1, 1, 1, 1, 1]
  d01 := [1, 1, 1, 0, 1, 1, 1, 1]
  d10 := [1, 1, 1, 1, 1, 0, 1, 1]
  d11 := [1, 1, 1, 1, 1, 1, 1, 0]

/-- The defaults of R7. -/
def Config.default : Config where
  sampleW := 1
  sHi := 1
  sLo := 0
  catalog := Catalog.default
  frameCap := 1024
  chunkMax := 4096

end Sys2Proof
end

