-- ==== Sys2Proof/Syntax.lean ====
section
/-! DEFINITION. The vocabulary of the block: its instructions (nine decoder steps and two host commands, R6, R53, R105), the
decoder state, the annotation codes and the host's commands. -/

namespace Sys2Proof

/-- The instructions, one constructor per row of the opcode table. A decoder step has no operand field: all its samples together
are compared with a whole pattern (R47). The host command PROCESS carries its chunk (R103). -/
inductive Instr where
  /-- PREAMBLE, R89 -/
  | preamble
  /-- SKIP, R90 -/
  | skip
  /-- EOF, R91 -/
  | eof
  /-- DATA00, R93 -/
  | data00
  /-- DATA01, R94 -/
  | data01
  /-- DATA10, R95 -/
  | data10
  /-- DATA11, R96 -/
  | data11
  /-- CORRUPT.OVF: CORRUPT (overflow), R98 -/
  | corruptOvf
  /-- CORRUPT: CORRUPT (mismatch), R97 -/
  | corrupt
  /-- RESET, R132 -/
  | reset
  /-- PROCESS(new), R103 -/
  | process (new : List Sample)
  deriving DecidableEq, Repr

/-- `st`, the decoder state (R15), the block's mode (R127). -/
inductive DecoderState where
  /-- tries `PAT_PRE` only -/
  | seekingPreamble
  /-- tries `PAT_EOF`, then the Data patterns -/
  | receivingData
  deriving DecidableEq, Repr

/-- An annotation code by its meaning (R56). -/
inductive Marker where
  /-- no event -/
  | none
  /-- a Preamble begins here -/
  | preamble
  /-- an EOF begins here -/
  | eof
  /-- a rejected window begins here -/
  | corrupted
  /-- a Data symbol with code 00 begins here -/
  | data00
  /-- a Data symbol with code 01 begins here -/
  | data01
  /-- a Data symbol with code 10 begins here -/
  | data10
  /-- a Data symbol with code 11 begins here -/
  | data11
  deriving DecidableEq, Repr

/-- The 3-bit number of an annotation code (R56; the spec's own choice, D14). -/
def Marker.code : Marker → BitVec 3
  | .none => 0#3
  | .preamble => 1#3
  | .eof => 2#3
  | .corrupted => 3#3
  | .data00 => 4#3
  | .data01 => 5#3
  | .data10 => 6#3
  | .data11 => 7#3

/-- A command of the host (R105). -/
inductive HostCommand where
  /-- RESET -/
  | reset
  /-- PROCESS(new) -/
  | process (new : List Sample)
  deriving DecidableEq, Repr

/-- The system instruction a host command is (R6). -/
def HostCommand.instr : HostCommand → Instr
  | .reset => .reset
  | .process new => .process new

end Sys2Proof
end

