-- ==== Sys2Proof/WellFormed.lean ====
section
/-! DEFINITION. Well-formed instructions: what the host may issue (R7, R45, R103). -/

namespace Sys2Proof

/-- Every sample of `xs` is a code of `SAMPLE_W` bits (R45). -/
def samplesFit (g : Config) (xs : List Sample) : Bool := xs.all fun x => decide (x < 2 ^ g.sampleW)

/-- A decoder step and RESET have no operand. PROCESS carries at most `CHUNK_MAX` samples (R103, R136 (c)), each a code of
`SAMPLE_W` bits (R45). -/
def Instr.wf (g : Config) : Instr → Bool
  | .preamble => true
  | .skip => true
  | .eof => true
  | .data00 => true
  | .data01 => true
  | .data10 => true
  | .data11 => true
  | .corruptOvf => true
  | .corrupt => true
  | .reset => true
  | .process new => decide (new.length ≤ g.chunkMax) && samplesFit g new

end Sys2Proof
end

