-- ==== Sys2Proof/Decode.lean ====
section
/-! DEFINITION. The Symbol Catalog (R63 to R68), the decoder from (state, window) to decoder step (R52, R53, R88), the encoder
from the same catalog, and the reading of the opcode table's words. -/

namespace Sys2Proof

/-! ### The Symbol Catalog -/

/-- `match(W, off, pat)`, R64: the pattern fits into the window at `off` and all its samples are equal, exactly, to the window's. -/
def matchAt (W : List Sample) (off : Nat) (pat : List Sample) : Bool :=
  decide (off + pat.length ≤ W.length) && (W.drop off).take pat.length == pat

/-- `classify(W, off)`, R66: the code of the Data pattern that matches, none when none does. -/
def classify (g : Config) (W : List Sample) (off : Nat) : Option Code :=
  if matchAt W off (g.catalog.data 0#2) then some 0#2
  else if matchAt W off (g.catalog.data 1#2) then some 1#2
  else if matchAt W off (g.catalog.data 2#2) then some 2#2
  else if matchAt W off (g.catalog.data 3#2) then some 3#2
  else none

/-! ### Decoding -/

/-- Why a window is not decoded. -/
inductive DecodeError where
  /-- Fewer than eight samples are available from the cursor; a step may not be tried (R87, R106). -/
  | fewerThanEightSamples
  deriving DecidableEq, Repr

/-- The Data step that pushes code `k` (R93 to R96). -/
def dataInstr (k : Code) : Instr :=
  if k = 0#2 then .data00 else if k = 1#2 then .data01 else if k = 2#2 then .data10 else .data11

/-- The dispatch of R88, in its order: the step selected at cursor `c` of the window `W`, in decoder state `st` with `fcnt`
symbols in the frame buffer. It is total on windows with eight samples from `c` (R54). -/
def decode (g : Config) (st : DecoderState) (fcnt : Nat) (W : List Sample) (c : Nat) : Except DecodeError Instr :=
  if c + frameLen ≤ W.length then
    match st with
    | .seekingPreamble =>
      if matchAt W c g.catalog.pre then .ok .preamble else .ok .skip
    | .receivingData =>
      if matchAt W c g.catalog.eof then .ok .eof
      else
        match classify g W c with
        | some k => if fcnt < g.frameCap then .ok (dataInstr k) else .ok .corruptOvf
        | none => .ok .corrupt
  else .error .fewerThanEightSamples

/-! ### Encoding -/

/-- Eight samples that are not `PAT_PRE`: all `S_HI`, or all `S_LO` where the catalog's Preamble is all `S_HI`. The encoder's
representative of the windows that SKIP (DESIGN CHOICE, log entry 11). -/
def skipWindow (g : Config) : List Sample :=
  if g.catalog.pre = List.replicate frameLen g.sHi then List.replicate frameLen g.sLo else List.replicate frameLen g.sHi

/-- Eight samples that are neither EOF nor Data: all `S_LO`, or all `S_HI` where the catalog's EOF is all `S_LO`. The encoder's
representative of the windows that CORRUPT (DESIGN CHOICE, log entry 11). -/
def corruptWindow (g : Config) : List Sample :=
  if g.catalog.eof = List.replicate eofLen g.sLo then List.replicate frameLen g.sHi else List.replicate frameLen g.sLo

/-- The samples that encode a decoder step (R47, R53): the pattern of its format, or the representative window of a step whose
row of the table is `xxxxxxxx`. A host command has no encoding (R62). -/
def encode (g : Config) : Instr → Option (List Sample)
  | .preamble => some g.catalog.pre
  | .skip => some (skipWindow g)
  | .eof => some g.catalog.eof
  | .data00 => some g.catalog.d00
  | .data01 => some g.catalog.d01
  | .data10 => some g.catalog.d10
  | .data11 => some g.catalog.d11
  | .corruptOvf => some g.catalog.d00
  | .corrupt => some (corruptWindow g)
  | .reset => none
  | .process _ => none

/-- The decoder state in which a step is tried (R53, first column). A host command is no step; it is given the reset value. -/
def modeOf : Instr → DecoderState
  | .preamble => .seekingPreamble
  | .skip => .seekingPreamble
  | .eof => .receivingData
  | .data00 => .receivingData
  | .data01 => .receivingData
  | .data10 => .receivingData
  | .data11 => .receivingData
  | .corruptOvf => .receivingData
  | .corrupt => .receivingData
  | .reset => .seekingPreamble
  | .process _ => .seekingPreamble

/-! ### The opcode table's words

The spec packs no window into a number (R48); the table's reader wrote each pattern's string as one, `s0` the most significant
bit of the row's format. These functions read such a word back (log entry 9). -/

/-- The sample a pattern-string digit stands for (R48). -/
def sampleOfBit (g : Config) (b : Bool) : Sample := if b then g.sHi else g.sLo

/-- The samples of a format of `len` samples written as the number `w`, `s0` the most significant. -/
def samplesOfNumber (g : Config) (len w : Nat) : List Sample :=
  (List.range len).map fun i => sampleOfBit g (w.testBit (len - 1 - i))

/-- The samples of a table word of `nbits` bits. A word that is the number of the four-sample `PAT_EOF` is the E4 row,
followed by four samples of zero bits; any other word is whole P8 windows, the first in bits 7..0. -/
def tableSamples (g : Config) (nbits w : Nat) : List Sample :=
  if w < 16 ∧ samplesOfNumber g 4 w = g.catalog.eof then
    g.catalog.eof ++ List.replicate 4 g.sLo
  else
    (List.range (max 1 ((nbits + 7) / 8))).flatMap fun k => samplesOfNumber g 8 (w / 2 ^ (8 * k) % 256)

/-- The decoder state a table word is read in, since the table gives the state in a column of its own: the state in which one of
the six patterns is recognised, SeekingPreamble where none is. -/
def tableMode (g : Config) (W : List Sample) : DecoderState :=
  if matchAt W 0 g.catalog.pre then .seekingPreamble
  else if matchAt W 0 g.catalog.eof || (classify g W 0).isSome then .receivingData
  else .seekingPreamble

/-- The instruction the decoder reads from a word numbered as the opcode table numbers it, default configuration, empty frame
buffer. -/
def decodeTableWord (nbits w : Nat) : Option Instr :=
  let W := tableSamples Config.default nbits w
  match decode Config.default (tableMode Config.default W) 0 W 0 with
  | .ok i => some i
  | .error _ => none

end Sys2Proof
end

