-- ==== Sys2Proof/Machine/Operands.lean ====
section
/-! DEFINITION. Operand assembly: from 2-bit symbol codes to integers and bytes (R35, R36, R37, R58, R78). -/

namespace Sys2Proof.Machine

/-- A run of symbols folded into an integer: the first symbol in the least significant two bits, each later one shifted left by
two more (R35). -/
def pack : List Code → Nat
  | [] => 0
  | c :: cs => c.toNat ||| (pack cs <<< 2)

/-- `to_value(a, b)`, R78: the symbols whose index `i` satisfies `max(a,0) ≤ i < min(b, fcnt)`, folded; 0 when there is none. -/
def toValue (fb : List Code) (a b : Int) : Nat :=
  let lo := (max a 0).toNat
  let hi := (min b fb.length).toNat
  pack ((fb.take hi).drop lo)

/-- Byte `k` of a value: `v[8k+7 : 8k]` (R37). -/
def byteOf (v k : Nat) : Byte := BitVec.ofNat 8 (v >>> (8 * k))

end Sys2Proof.Machine
end

