-- ==== Sys2Proof/Machine/Flags.lean ====
section
/-! DEFINITION. The flags of the block: the CRC-16 Validator behind `crc_ok` (R69 to R73) and the short-frame flag (R82). -/

namespace Sys2Proof.Machine

/-- One round of R70: if the low bit is set shift right and XOR the polynomial, else shift right. -/
def crcRound (reg : CrcWord) : CrcWord :=
  if reg.getLsbD 0 then (reg >>> 1) ^^^ crcPoly else reg >>> 1

/-- One byte of R70: XOR it into the low byte of the register, then eight rounds. -/
def crcByte (reg : CrcWord) (b : Byte) : CrcWord :=
  crcRound (crcRound (crcRound (crcRound (crcRound (crcRound (crcRound (crcRound (reg ^^^ b.setWidth 16))))))))

/-- `crc_reg(v, bit_count)`, R70: seed 0xFFFF, then `ceil(bit_count / 8)` bytes from the least significant on. -/
def crcReg (v bitCount : Nat) : CrcWord :=
  (List.range ((bitCount + 7) / 8)).foldl (fun reg k => crcByte reg (byteOf v k)) crcSeed

/-- `validate(v, bit_count)`, R71: the final register equals the fixed residue. -/
def validate (v bitCount : Nat) : Bool := crcReg v bitCount == crcResidue

/-- `short`: fewer symbols than the layout needs (R55, R82). -/
def isShort (n : Nat) : Bool := decide (n < minSyms)

end Sys2Proof.Machine
end

