-- ==== Sys2Proof/Machine/State.lean ====
section
/-! DEFINITION. The machine's state as plain data, the reasons a step can stop, and the state right after RESET. -/

namespace Sys2Proof.Machine

/-- A decoded-transmission report (R55). The payload is an integer of `2 · payload_syms` bits, of no fixed width. -/
structure Report where
  /-- `n_sym`: the number of Data symbols in the frame -/
  nSym : Nat
  /-- `flag` -/
  flag : Byte
  /-- `command` -/
  command : Byte
  /-- `payload_syms` -/
  payloadSyms : Nat
  /-- `payload` -/
  payload : Nat
  /-- `crc_field` -/
  crcField : BitVec 16
  /-- `crc_ok` -/
  crcOk : Bool
  /-- `short` -/
  short : Bool
  deriving DecidableEq, Repr

/-- What the core holds only while a PROCESS executes (R20). -/
structure Invocation where
  /-- `new`: the chunk -/
  chunk : List Sample
  /-- `tail_len0`: length of the carry-over prefix -/
  tailLen0 : Nat
  /-- `W`: the working window -/
  window : List Sample
  /-- `ann`: the annotation output under construction -/
  ann : List Marker
  /-- `reps`: the reports produced so far -/
  reps : List Report
  deriving DecidableEq, Repr

/-- What the host receives from one completed PROCESS (R10): the two outputs, with no order between them (R112). -/
structure Delivery where
  /-- the annotation sequence -/
  ann : List Marker
  /-- the reports, in step order -/
  reps : List Report
  deriving DecidableEq, Repr

/-- The state: the parameters of the instance (R7), the architectural elements of R14, the ghost elements of R21, the transients
of R20 while a PROCESS executes, and the host's side of the interface (R105, R145). `tail_len` and `fcnt` are the lengths of `tail`
and `fb` (R14) and are computed (`State.tailLen`, `State.fcnt`). -/
structure State where
  /-- the parameters of R7; no step writes them -/
  cfg : Config
  /-- a RESET has been given since power-up (R134, U1); the model's own field -/
  started : Bool
  /-- `st` (R15) -/
  st : DecoderState
  /-- `cur` (R16): an index into the next window between commands, into the current one during a PROCESS -/
  cur : Nat
  /-- `tail` (R18), oldest sample first -/
  tail : List Sample
  /-- `fb` (R19), first symbol of the frame first -/
  fb : List Code
  /-- ghost `total` (R21) -/
  total : Nat
  /-- ghost `trace` (R10, R21), oldest entry first -/
  trace : List (Nat × Marker)
  /-- the transients of R20; none between commands -/
  inv : Option Invocation
  /-- the commands the host has still to issue, next first (R105); the model's own field -/
  pending : List HostCommand
  /-- what the host has received, oldest first (R145); the model's own field -/
  delivered : List Delivery
  deriving DecidableEq, Repr

/-- `tail_len` (R14). -/
@[simp] abbrev State.tailLen (s : State) : Nat := s.tail.length

/-- `fcnt` (R14). -/
@[simp] abbrev State.fcnt (s : State) : Nat := s.fb.length

/-- Ghost `base` between commands (R21): the absolute index of sample 0 of the next window. A natural-number difference: it is
exact where `tail_len ≤ total`, which every reachable state has (R24 (b); log entry 7). -/
def State.base (s : State) : Nat := s.total - s.tailLen

/-- The faults. The block itself has none (R117). -/
inductive Fault where
  /-- An annotation entry outside the buffer would be written (`emit`). R40 says this never happens and gives it no meaning; no
  state that satisfies the invariant raises it. Safe. -/
  | annotationOutOfRange
  deriving DecidableEq, Repr

/-- The refusals: host moves and step attempts the spec gives no meaning. -/
inductive Refusal where
  /-- Raised by `exec` alone, for an instruction that has no meaning yet; no arm raises it. Safe. -/
  | notModelled (mnemonic : String)
  /-- A decoder step outside an invocation: there is no window (R20, R87). Raised by the nine decoder steps. Safe. -/
  | stepOutsideInvocation
  /-- A decoder step with fewer than eight samples from the cursor (R87, R106). Raised by the nine decoder steps. Safe. -/
  | lookaheadMissing
  /-- A decoder step whose **Condition** (R89 to R98) does not hold: another step is the one selected (R88). Raised by the nine
  decoder steps, never by `step` (which decodes first). Safe. -/
  | conditionNotMet
  /-- A host command while another executes (R136 (b), R137, U2). Raised by RESET and PROCESS. Unsafe if a real host does it: the
  spec assumes it never does. -/
  | commandWhileBusy
  /-- PROCESS before any RESET (R134, R136 (a), U1). Raised by PROCESS. Safe. -/
  | processBeforeReset
  /-- A chunk longer than `CHUNK_MAX` (R136 (c), U3). Raised by PROCESS. Safe. -/
  | chunkTooLong
  /-- A chunk that holds a number which is no code of `SAMPLE_W` bits (R45). Raised by PROCESS. Safe. -/
  | sampleOutOfRange
  /-- An instance on an ill-formed configuration (R8). Raised by `build`. Safe. -/
  | illFormedConfig
  deriving DecidableEq, Repr

/-- The outcome of an instruction or a step. -/
abbrev Result := Host.Outcome State Fault Refusal

/-- The state after RESET of an instance with the parameters `g`, nothing pending and nothing delivered (R26, R132). -/
def State.ofConfig (g : Config) : State where
  cfg := g
  started := true
  st := .seekingPreamble
  cur := 0
  tail := []
  fb := []
  total := 0
  trace := []
  inv := none
  pending := []
  delivered := []

/-- The machine right after RESET, with the default parameters of R7 (R26). -/
def State.reset : State := State.ofConfig Config.default

end Sys2Proof.Machine
end

