-- ==== Sys2Proof/Machine/Ops.lean ====
section
/-! DEFINITION. The named operations the meanings are built from: the Frame Accumulator (R77 to R83), the marker primitive (R110),
the Corrupted transition (R119), and the parts of an invocation (R104 to R112). -/

namespace Sys2Proof.Machine

/-! ### Outcomes -/

/-- Continue an outcome that is a next state; keep a fault or a refusal. -/
def bindNext (o : Result) (f : State → Result) : Result :=
  match o with
  | .next s => f s
  | .fault r => .fault r
  | .refused r => .refused r

/-- Change the next state of an outcome. -/
def mapNext (f : State → State) (o : Result) : Result := bindNext o fun s => .next (f s)

/-! ### Single elements -/

/-- `cur <- cur + n`, the block's `pc <- target` (R12). -/
def advance (n : Nat) (s : State) : State := { s with cur := s.cur + n }

/-- `st <- m`. -/
def setMode (m : DecoderState) (s : State) : State := { s with st := m }

/-- `push(code)`, R77: write at index `fcnt`, then increment it. The caller guarantees `fcnt < FRAME_CAP`. -/
def push (k : Code) (s : State) : State := { s with fb := s.fb ++ [k] }

/-- `reset_fb()`, R79. -/
def resetFb (s : State) : State := { s with fb := [] }

/-! ### The report -/

/-- The report of `finalize()`, R83, of a frame buffer holding `fb`. -/
def finalize (fb : List Code) : Report :=
  let n := fb.length
  { nSym := n
    flag := BitVec.ofNat 8 (toValue fb 0 4)
    command := BitVec.ofNat 8 (toValue fb 4 8)
    payloadSyms := n - 16
    payload := toValue fb 8 ((n : Int) - 8)
    crcField := BitVec.ofNat 16 (toValue fb ((n : Int) - 8) n)
    crcOk := validate (toValue fb 0 n) (2 * n)
    short := isShort n }

/-- `reps <- reps ++ [r]` (R83, R112). -/
def appendReport (r : Report) (s : State) : State :=
  { s with inv := s.inv.map fun v => { v with reps := v.reps ++ [r] } }

/-! ### The marker primitive -/

/-- `emit(c, k)`, R110: append `(base + c, k)` to the trace, with `base = total − tail_len0`; write `ann[c − tail_len0]` when the
window index `c` is not in the carry-over prefix. -/
def emit (c : Nat) (k : Marker) (v : Invocation) (s : State) : Result :=
  let traced : State := { s with trace := s.trace ++ [(s.total - v.tailLen0 + c, k)] }
  if v.tailLen0 ≤ c then
    if c - v.tailLen0 < v.ann.length then
      .next { traced with inv := some { v with ann := v.ann.set (c - v.tailLen0) k } }
    else .fault .annotationOutOfRange
  else .next { traced with inv := some v }

/-- The annotation code of a Data symbol: `4 + k` (R56, R92). -/
def dataMarker (k : Code) : Marker :=
  if k = 0#2 then .data00 else if k = 1#2 then .data01 else if k = 2#2 then .data10 else .data11

/-! ### Executing a decoder step -/

/-- What every decoder step needs (R87): an invocation in progress and eight samples from the cursor; then the step's own
**Condition**, on the invocation. -/
def guarded (cond : Invocation → Bool) (act : Invocation → Result) (s : State) : Result :=
  match s.inv with
  | none => .refused .stepOutsideInvocation
  | some v =>
    if s.cur + frameLen ≤ v.window.length then
      if cond v then act v else .refused .conditionNotMet
    else .refused .lookaheadMissing

/-- The Condition of the Data step with code `k` (R92). -/
def dataCondition (k : Code) (s : State) (v : Invocation) : Bool :=
  s.st == .receivingData && !matchAt v.window s.cur s.cfg.catalog.eof &&
  classify s.cfg v.window s.cur == some k && decide (s.fcnt < s.cfg.frameCap)

/-- The operation common to the four Data steps (R92): marker, push, 8 samples on. -/
def takeData (k : Code) (v : Invocation) (s : State) : Result :=
  mapNext (fun t => advance 8 (push k t)) (emit s.cur (dataMarker k) v s)

/-- The Corrupted transition, the block's trap (R97, R98, R119), one operation for both causes: nothing is saved, the partial frame
is discarded, the search resumes 4 samples on, one CORRUPTED marker is emitted and no report. There is no return instruction: the
machine re-enters ReceivingData only by the next PREAMBLE step (R120). -/
def takeCorrupted (v : Invocation) (s : State) : Result :=
  mapNext (fun t => setMode .seekingPreamble (advance 4 (resetFb t))) (emit s.cur .corrupted v s)

/-! ### The parts of an invocation -/

/-- `last_k(s)`, R11. -/
def lastN (k : Nat) (xs : List Sample) : List Sample := xs.drop (xs.length - k)

/-- The start of a PROCESS: the host's duties (R136 (a), (b), (c); R45), then the stitch `W <- tail ++ new` (R104), the annotation
buffer of `n` times NONE (R111) and an empty report sequence (R112). -/
def openInvocation (new : List Sample) (s : State) : Result :=
  match s.inv with
  | some _ => .refused .commandWhileBusy
  | none =>
    if s.started = false then .refused .processBeforeReset
    else if s.cfg.chunkMax < new.length then .refused .chunkTooLong
    else if samplesFit s.cfg new = false then .refused .sampleOutOfRange
    else
      .next { s with
        inv := some
          { chunk := new
            tailLen0 := s.tailLen
            window := s.tail ++ new
            ann := List.replicate new.length .none
            reps := [] } }

/-- The end of a PROCESS: tail save (R108), re-base (R109), ghost `total`, and the delivery of the two outputs (R111, R112). -/
def closeInvocation (v : Invocation) (s : State) : State :=
  { s with
    tail := lastN tailMax v.window
    cur := s.cur - (v.window.length - min tailMax v.window.length)
    total := s.total + v.chunk.length
    inv := none
    delivered := s.delivered ++ [{ ann := v.ann, reps := v.reps }] }

/-- The step the dispatch of R88 selects at the cursor. -/
def decodeAt (v : Invocation) (s : State) : Except DecodeError Instr :=
  decode s.cfg s.st s.fcnt v.window s.cur

/-- An instance built on the parameters `g` (R8), at power-up: a refusal where `g` is ill-formed; otherwise every state element is
unspecified until a RESET (R134), so they are whatever `p` holds. -/
def build (g : Config) (p : State) : Result :=
  if g.wf then .next { p with cfg := g, started := false, inv := none } else .refused .illFormedConfig

end Sys2Proof.Machine
end

