-- ==== Sys2Proof/Machine/Corrupt.lean ====
section
/-! DEFINITION. The decoder steps that take the Corrupted transition: CORRUPT (mismatch) (R97) and CORRUPT (overflow) (R98). -/

namespace Sys2Proof.Machine

/-- CORRUPT (mismatch), R97. -/
def execCorrupt (s : State) : Result :=
  guarded
    (fun v => s.st == .receivingData && !matchAt v.window s.cur s.cfg.catalog.eof &&
      classify s.cfg v.window s.cur == none)
    (fun v => takeCorrupted v s) s

/-- CORRUPT (overflow), R98. The rule's `fcnt = FRAME_CAP` is the else branch of R88's `fcnt < FRAME_CAP`; no run exceeds the
capacity (R24 (c); log entry 18). -/
def execCorruptOvf (s : State) : Result :=
  guarded
    (fun v => s.st == .receivingData && !matchAt v.window s.cur s.cfg.catalog.eof &&
      (classify s.cfg v.window s.cur).isSome && !decide (s.fcnt < s.cfg.frameCap))
    (fun v => takeCorrupted v s) s

end Sys2Proof.Machine
end

