-- ==== Sys2Proof/Machine/Receive.lean ====
section
/-! DEFINITION. The decoder steps of ReceivingData that accept a symbol: EOF (R91) and the four Data steps (R92 to R96). -/

namespace Sys2Proof.Machine

/-- EOF, R91: marker, report of the frame buffer as it stands before it is emptied, 4 samples on, back to SeekingPreamble. -/
def execEof (s : State) : Result :=
  guarded (fun v => s.st == .receivingData && matchAt v.window s.cur s.cfg.catalog.eof)
    (fun v =>
      mapNext (fun t => setMode .seekingPreamble (advance 4 (resetFb (appendReport (finalize s.fb) t))))
        (emit s.cur .eof v s)) s

/-- DATA00, R93: R92 with `k = 0`. -/
def execData00 (s : State) : Result :=
  guarded (dataCondition 0#2 s) (fun v => takeData 0#2 v s) s

/-- DATA01, R94: R92 with `k = 1`. -/
def execData01 (s : State) : Result :=
  guarded (dataCondition 1#2 s) (fun v => takeData 1#2 v s) s

/-- DATA10, R95: R92 with `k = 2`. -/
def execData10 (s : State) : Result :=
  guarded (dataCondition 2#2 s) (fun v => takeData 2#2 v s) s

/-- DATA11, R96: R92 with `k = 3`. -/
def execData11 (s : State) : Result :=
  guarded (dataCondition 3#2 s) (fun v => takeData 3#2 v s) s

end Sys2Proof.Machine
end

