-- ==== Sys2Proof/Machine/Seek.lean ====
section
/-! DEFINITION. The decoder steps of SeekingPreamble: PREAMBLE (R89) and SKIP (R90). -/

namespace Sys2Proof.Machine

/-- PREAMBLE, R89. `fb` is not written. -/
def execPreamble (s : State) : Result :=
  guarded (fun v => s.st == .seekingPreamble && matchAt v.window s.cur s.cfg.catalog.pre)
    (fun v => mapNext (fun t => setMode .receivingData (advance 8 t)) (emit s.cur .preamble v s)) s

/-- SKIP, R90: the block's no-op. -/
def execSkip (s : State) : Result :=
  guarded (fun v => s.st == .seekingPreamble && !matchAt v.window s.cur s.cfg.catalog.pre)
    (fun _ => .next (advance 1 s)) s

end Sys2Proof.Machine
end

