-- ==== Sys2Proof/Machine/Command.lean ====
section
/-! DEFINITION. The host commands: RESET (R132) and PROCESS (R103) with its loop (R106, R107). -/

namespace Sys2Proof.Machine

/-- RESET, R132: every state element takes the reset value of R26; nothing is output (R133). What the host has received and what it
will issue next are the host's and stay. A command while another executes is not accepted (R136 (b)). -/
def execReset (s : State) : Result :=
  match s.inv with
  | some _ => .refused .commandWhileBusy
  | none =>
    .next { s with
      started := true
      st := .seekingPreamble
      cur := 0
      tail := []
      fb := []
      total := 0
      trace := [] }

/-- The meaning of a decoder step. A host command is no decoder step. -/
def runDecoderStep (i : Instr) (s : State) : Result :=
  match i with
  | .preamble => execPreamble s
  | .skip => execSkip s
  | .eof => execEof s
  | .data00 => execData00 s
  | .data01 => execData01 s
  | .data10 => execData10 s
  | .data11 => execData11 s
  | .corruptOvf => execCorruptOvf s
  | .corrupt => execCorrupt s
  | .reset => .refused .commandWhileBusy
  | .process _ => .refused .commandWhileBusy

/-- `step()`, R88: the step selected at the cursor, executed. -/
def decoderStep (v : Invocation) (s : State) : Result :=
  match decodeAt v s with
  | .ok i => runDecoderStep i s
  | .error _ => .refused .lookaheadMissing

/-- The loop of R106: `step()` while eight samples are available from the cursor. `fuel` bounds the number of steps; the length of
the window is always enough, since every step moves the cursor on (R99, R107; log entry 23). -/
def processLoop : Nat → State → Result
  | 0, s => .next s
  | fuel + 1, s =>
    match s.inv with
    | none => .next s
    | some v =>
      if s.cur + frameLen ≤ v.window.length then bindNext (decoderStep v s) (processLoop fuel) else .next s

/-- The end of a PROCESS, where one is in progress. -/
def finishInvocation (s : State) : Result :=
  match s.inv with
  | none => .next s
  | some v => .next (closeInvocation v s)

/-- PROCESS(new), whole, R103: stitch, loop, tail save, re-base, deliver. -/
def execProcess (new : List Sample) (s : State) : Result :=
  bindNext (openInvocation new s) fun t =>
    bindNext (processLoop (s.tailLen + new.length) t) finishInvocation

end Sys2Proof.Machine
end

