-- ==== Sys2Proof/Machine/Dispatch.lean ====
section
/-! DEFINITION. The dispatch from instruction to meaning: one arm per constructor. -/

namespace Sys2Proof.Machine

def exec (i : Instr) (s : State) : Host.Outcome State Fault Refusal :=
  match i with
  | .preamble => Sys2Proof.Machine.execPreamble s
  | .skip => Sys2Proof.Machine.execSkip s
  | .eof => Sys2Proof.Machine.execEof s
  | .data00 => Sys2Proof.Machine.execData00 s
  | .data01 => Sys2Proof.Machine.execData01 s
  | .data10 => Sys2Proof.Machine.execData10 s
  | .data11 => Sys2Proof.Machine.execData11 s
  | .corruptOvf => Sys2Proof.Machine.execCorruptOvf s
  | .corrupt => Sys2Proof.Machine.execCorrupt s
  | .reset => Sys2Proof.Machine.execReset s
  | .process new => Sys2Proof.Machine.execProcess new s

end Sys2Proof.Machine
end

