-- ==== Sys2Proof/Machine/Step.lean ====
section
/-! DEFINITION. One step of the machine, and the placing of a table word where the next step fetches. -/

namespace Sys2Proof.Machine

/-- One step. While a PROCESS executes: with eight samples from the cursor, fetch and decode at the cursor and execute the decoder
step (R87, R88, R106); otherwise end the invocation (R108 to R112). Between commands: take the host's next command (R105); RESET is
executed whole, PROCESS is opened and then executed by the following steps, one decoder step each, to the same state as its whole
meaning `execProcess`. With no command the block is idle and holds its state (R131). -/
def step (s : State) : Host.Outcome State Fault Refusal :=
  match s.inv with
  | some v =>
    if s.cur + frameLen ≤ v.window.length then
      match decodeAt v s with
      | .ok i => exec i s
      | .error _ => .refused .lookaheadMissing
    else .next (closeInvocation v s)
  | none =>
    match s.pending with
    | [] => .next s
    | .reset :: rest => exec .reset { s with pending := rest }
    | .process new :: rest => openInvocation new { s with pending := rest }

/-- The state with a table word's samples where the next step fetches: a PROCESS of those samples in progress, its window the tail
and the samples, the cursor on the first of them, the decoder state the one the table gives the word (log entry 9). -/
def State.withFetchWord (s : State) (nbits w : Nat) : State :=
  let xs := tableSamples s.cfg nbits w
  { s with
    st := tableMode s.cfg xs
    cur := s.tailLen
    inv := some
      { chunk := xs
        tailLen0 := s.tailLen
        window := s.tail ++ xs
        ann := List.replicate xs.length .none
        reps := [] } }

end Sys2Proof.Machine
end

