-- ==== Sys2Proof/Machine/Notation.lean ====
section
/-! DEFINITION. The notation for sample streams (R59, R60), the block's assembly language. It is no hardware: statements and tests
use it to say which samples a stream holds. -/

namespace Sys2Proof.Machine

/-- A token of a sample stream (R59). -/
inductive Token where
  /-- `P`: the Preamble pattern -/
  | p
  /-- `E`: the EOF pattern -/
  | e
  /-- `D<k>`: a Data pattern -/
  | d (k : Code)
  /-- `H`: one `S_HI` sample -/
  | h
  /-- `L`: one `S_LO` sample -/
  | l
  /-- `X(v)`: one sample of code `v` -/
  | x (v : Sample)
  /-- a chunk boundary: the PROCESS command ends here and the next begins -/
  | bar
  deriving DecidableEq, Repr

/-- The samples a token stands for (R59). -/
def tokenSamples (g : Config) : Token → List Sample
  | .p => g.catalog.pre
  | .e => g.catalog.eof
  | .d k => g.catalog.data k
  | .h => [g.sHi]
  | .l => [g.sLo]
  | .x v => [v]
  | .bar => []

/-- The chunks of a stream: a stream with `k` boundaries is `k + 1` PROCESS commands (R59). -/
def assemble (g : Config) : List Token → List (List Sample)
  | [] => [[]]
  | .bar :: ts => [] :: assemble g ts
  | t :: ts =>
    match assemble g ts with
    | [] => [tokenSamples g t]
    | c :: cs => (tokenSamples g t ++ c) :: cs

/-- The symbols of `B(b)`: bit pairs of the byte, lowest first (R36, R60). -/
def byteSymbols (b : Byte) : List Code :=
  [b.extractLsb' 0 2, b.extractLsb' 2 2, b.extractLsb' 4 2, b.extractLsb' 6 2]

/-- The samples of a run of Data symbols. -/
def symbolSamples (g : Config) (ks : List Code) : List Sample := ks.flatMap g.catalog.data

/-- `P D… E` for a run of symbols (R61). -/
def frameOfSymbols (g : Config) (ks : List Code) : List Sample :=
  g.catalog.pre ++ symbolSamples g ks ++ g.catalog.eof

/-- `FRAME(b0, …, bk)` (R60). -/
def frameOfBytes (g : Config) (bs : List Byte) : List Sample := frameOfSymbols g (bs.flatMap byteSymbols)

/-- `b0 | b1 << 8 | …` (R60). -/
def bytesValue : List Byte → Nat
  | [] => 0
  | b :: bs => b.toNat ||| (bytesValue bs <<< 8)

/-- `c = crc_reg(b0 | b1 << 8 | …, 8(k+1)) ^ 0xFFFF` (R60, R74). -/
def crcComplement (bs : List Byte) : CrcWord := crcReg (bytesValue bs) (8 * bs.length) ^^^ 0xFFFF#16

/-- The bytes of `REQ(b0, …, bk)`: the CRC appended, low byte first (R60). -/
def withCrc (bs : List Byte) : List Byte :=
  bs ++ [(crcComplement bs).extractLsb' 0 8, (crcComplement bs).extractLsb' 8 8]

/-- `REQ(b0, …, bk)` (R60). -/
def request (g : Config) (bs : List Byte) : List Sample := frameOfBytes g (withCrc bs)

end Sys2Proof.Machine
end

