-- ==== Sys2Proof/Safety.lean ====
section
/-! DEFINITION. What counts as a good state of this machine (R24, R25, R33, R40), and the words the statements use. -/

namespace Sys2Proof.Machine

/-- The index spaces in their canonical form (R28): each holds exactly the cells the rules give a value, each within its width. The
tail has at most 7 samples (R18); the frame buffer at most `FRAME_CAP` codes (R24 (c)); during an invocation the window is the tail
and the chunk (R29), the annotation buffer has one entry per sample of the chunk (R33), the chunk is one the host may send. -/
def Memory.wf (s : State) : Bool :=
  decide (s.tail.length ≤ tailMax) && samplesFit s.cfg s.tail && decide (s.fb.length ≤ s.cfg.frameCap) &&
  match s.inv with
  | none => true
  | some v =>
    v.window == s.tail ++ v.chunk && v.tailLen0 == s.tail.length && v.ann.length == v.chunk.length &&
    decide (v.chunk.length ≤ s.cfg.chunkMax) && samplesFit s.cfg v.chunk

/-- The length of the window the cursor is an index into: the next window's known part between commands, the current window during a
PROCESS (R16). -/
def State.windowLen (s : State) : Nat :=
  match s.inv with
  | none => s.tail.length
  | some v => v.window.length

/-- The invariant of R24 and R25: a well-formed instance, the index spaces in canonical form, an empty buffer while seeking (R24 (d)),
the tail as long as R24 (b) says, the cursor within the window (R24 (a), R25). -/
abbrev State.Inv (s : State) : Prop :=
  s.cfg.wf = true ∧ Memory.wf s = true ∧ (s.st = .seekingPreamble → s.fb = []) ∧
  s.tail.length = min 7 s.total ∧ s.cur ≤ s.windowLen

/-- The invariant of the ghost trace: positions strictly increase (so no annotation entry is written twice, R33), lie before the
cursor's absolute position, and no entry's kind is NONE (R10, R56). -/
abbrev State.TraceInv (s : State) : Prop :=
  s.trace.Pairwise (fun a b => a.1 < b.1) ∧ (∀ e ∈ s.trace, e.1 < s.base + s.cur) ∧ (∀ e ∈ s.trace, e.2 ≠ .none)

/-- A decoder step may be tried: an invocation is in progress and eight samples are available from the cursor (R87, R106). -/
abbrev State.canStep (s : State) (v : Invocation) : Prop := s.inv = some v ∧ s.cur + 8 ≤ v.window.length

/-- A marker at the cursor has its place: it falls into the carry-over prefix or into the annotation buffer (R40). -/
abbrev markerFits (s : State) (v : Invocation) : Prop := v.tailLen0 ≤ s.cur → s.cur - v.tailLen0 < v.ann.length

/-- No Preamble begins in the window `W` from the cursor on and before index `n`: the decoder, seeking, comes to `n` by SKIPs alone
(R90). -/
abbrev State.quietUntil (s : State) (W : List Sample) (n : Nat) : Prop :=
  ∀ off, off < n → s.cur ≤ off → matchAt W off s.cfg.catalog.pre = false

/-- The tail is the end, and `total` the length, of the stream `xs` received since RESET (R24 (b)). -/
abbrev State.follows (s : State) (xs : List Sample) : Prop :=
  s.tail = xs.drop (xs.length - 7) ∧ s.total = xs.length

/-- The annotation buffer after `emit(c, k)` (R110): written at `c − tail_len0`, untouched for a `c` in the carry-over prefix. -/
def annAfter (c : Nat) (k : Marker) (v : Invocation) : List Marker :=
  if v.tailLen0 ≤ c then v.ann.set (c - v.tailLen0) k else v.ann

/-- The ghost trace after `emit(c, k)` (R110). -/
def traceAfter (c : Nat) (k : Marker) (v : Invocation) (s : State) : List (Nat × Marker) :=
  s.trace ++ [(s.total - v.tailLen0 + c, k)]

/-- The nine decoder steps. -/
def decoderSteps : List Instr :=
  [.preamble, .skip, .eof, .data00, .data01, .data10, .data11, .corruptOvf, .corrupt]

/-- The `cur` advance column of R53. -/
def stepAdvance : Instr → Nat
  | .preamble => 8
  | .skip => 1
  | .eof => 4
  | .data00 => 8
  | .data01 => 8
  | .data10 => 8
  | .data11 => 8
  | .corruptOvf => 4
  | .corrupt => 4
  | .reset => 0
  | .process _ => 0

/-- The next `st` column of R53. -/
def stepNextState : Instr → DecoderState
  | .preamble => .receivingData
  | .skip => .seekingPreamble
  | .eof => .seekingPreamble
  | .data00 => .receivingData
  | .data01 => .receivingData
  | .data10 => .receivingData
  | .data11 => .receivingData
  | .corruptOvf => .seekingPreamble
  | .corrupt => .seekingPreamble
  | .reset => .seekingPreamble
  | .process _ => .seekingPreamble

/-- The marker column of R53. -/
def stepMarker : Instr → Option Marker
  | .preamble => some .preamble
  | .skip => none
  | .eof => some .eof
  | .data00 => some .data00
  | .data01 => some .data01
  | .data10 => some .data10
  | .data11 => some .data11
  | .corruptOvf => some .corrupted
  | .corrupt => some .corrupted
  | .reset => none
  | .process _ => none

/-- The frame buffer after a step (R89 to R98): a Data step pushes its code, EOF and CORRUPT empty the buffer, PREAMBLE and SKIP do
not write it. -/
def stepBuffer (i : Instr) (fb : List Code) : List Code :=
  match i with
  | .preamble => fb
  | .skip => fb
  | .eof => []
  | .data00 => fb ++ [0#2]
  | .data01 => fb ++ [1#2]
  | .data10 => fb ++ [2#2]
  | .data11 => fb ++ [3#2]
  | .corruptOvf => []
  | .corrupt => []
  | .reset => []
  | .process _ => fb

/-- A sequence of PROCESS commands, each run whole (R114). -/
def runChunks : List (List Sample) → State → Result
  | [], s => .next s
  | c :: cs, s => bindNext (exec (.process c) s) (runChunks cs)

/-- The reports of a list of deliveries, in order. -/
def reportsOf (ds : List Delivery) : List Report := ds.flatMap Delivery.reps

end Sys2Proof.Machine
end

