-- ==== Sys2Proof/Certificates/Slice0/Obligations.lean ====
section
/-! DEFINITION. The statements for the provers. Each docstring names the rule of spec/ it formalises. -/

open Sys2Proof Sys2Proof.Machine

/-! ### Reset, start-up, the host's commands -/

/-- R26: after RESET, from whatever state between commands, every element has the reset value of the rule, the counts and the ghost
`base` computed from them too. The parameters (R7) are untouched; so are the model's own two host lists, and its own `started` is set
(log entries 4, 5). -/
def Obligations.ResetSetsEveryElement : Prop :=
  ∀ s : State, s.inv = none →
    ∃ t, exec .reset s = .next t ∧
      t = { cfg := s.cfg, started := true, st := .seekingPreamble, cur := 0, tail := [], fb := [], total := 0, trace := [],
            inv := none, pending := s.pending, delivered := s.delivered } ∧
      t.tailLen = 0 ∧ t.fcnt = 0 ∧ t.base = 0

/-- The state the model starts in is the one RESET leaves with the default parameters (R7, R26), nothing pending and nothing
delivered (log entry 4). -/
def Obligations.ResetStateIsTheResetValue : Prop :=
  State.reset.cfg = Config.default ∧ State.reset.started = true ∧ State.reset.st = .seekingPreamble ∧ State.reset.cur = 0 ∧
  State.reset.tail = [] ∧ State.reset.fb = [] ∧ State.reset.total = 0 ∧ State.reset.base = 0 ∧ State.reset.trace = [] ∧
  State.reset.inv = none ∧ State.reset.pending = [] ∧ State.reset.delivered = []

/-- R8, R134: an instance is not built on an ill-formed configuration; on a well-formed one it is, whatever the elements hold at
power-up, a PROCESS is refused until a RESET (log entry 5), and the RESET gives the state of R26 for that configuration. -/
def Obligations.BuildNeedsWellFormedThenReset : Prop :=
  (∀ (g : Config) (p : State), g.wf = false → build g p = .refused .illFormedConfig) ∧
  (∀ (g : Config) (p : State), g.wf = true →
    ∃ s, build g p = .next s ∧ (∀ new, exec (.process new) s = .refused .processBeforeReset) ∧
      exec .reset s = .next { State.ofConfig g with pending := p.pending, delivered := p.delivered })

/-- R136 (a), (b), (c) and R45: what the host may not do is refused: PROCESS before RESET, a command while another executes, a chunk
longer than `CHUNK_MAX`, a chunk holding a number that is no code of `SAMPLE_W` bits. That the model
refuses, and the refusals' names, are log entries 3, 5, 13, 14. -/
def Obligations.HostDutiesAreRefused : Prop :=
  (∀ (s : State) (new : List Sample), s.inv = none → s.started = false →
    exec (.process new) s = .refused .processBeforeReset) ∧
  (∀ (s : State) (v : Invocation) (new : List Sample), s.inv = some v →
    exec (.process new) s = .refused .commandWhileBusy ∧ exec .reset s = .refused .commandWhileBusy) ∧
  (∀ (s : State) (new : List Sample), s.inv = none → s.started = true → s.cfg.chunkMax < new.length →
    exec (.process new) s = .refused .chunkTooLong) ∧
  (∀ (s : State) (new : List Sample) (x : Sample), s.inv = none → s.started = true → new.length ≤ s.cfg.chunkMax →
    x ∈ new → 2 ^ s.cfg.sampleW ≤ x → exec (.process new) s = .refused .sampleOutOfRange)

/-- R105, R131: between commands a step takes the host's next command: none leaves the state as it is, RESET is executed, PROCESS is
opened (stitch R104, annotation R111, reports R112). The list of commands is the model's own field (log entry 4). That PROCESS
is only opened by this step and carried out by the following ones, where the spec's command is atomic (R9, R42, R105), is a DESIGN
CHOICE of the model (log entry 15). -/
def Obligations.StepTakesTheNextCommand : Prop :=
  ∀ s : State, s.inv = none →
    (s.pending = [] → step s = .next s) ∧
    (∀ rest, s.pending = .reset :: rest → step s = exec .reset { s with pending := rest }) ∧
    (∀ new rest, s.pending = .process new :: rest → s.started = true → (Instr.process new).wf s.cfg = true →
      step s = .next { s with
        pending := rest
        inv := some
          { chunk := new, tailLen0 := s.tail.length, window := s.tail ++ new,
            ann := List.replicate new.length .none, reps := [] } })

/-- A step runs the decoded instruction: when the samples at the cursor decode to `i`, the step is `exec i` (R87, R88). -/
def Obligations.StepRunsTheDecodedInstruction : Prop :=
  ∀ (s : State) (v : Invocation) (i : Instr), s.inv = some v →
    decode s.cfg s.st s.fb.length v.window s.cur = .ok i → step s = exec i s

/-- R106, R108, R109: when fewer than eight samples are left the step ends the invocation: tail save, re-base, ghost total, delivery
of both outputs; and no decoder step can be executed then (R87). That the end is a machine step of its own is log entry 15; that a
decoder step tried then is refused as `lookaheadMissing` is log entry 16: DESIGN CHOICES of the model. -/
def Obligations.StepEndsTheInvocation : Prop :=
  ∀ (s : State) (v : Invocation), s.inv = some v → v.window.length < s.cur + 8 →
    step s = .next
      { s with
        tail := v.window.drop (v.window.length - 7)
        cur := s.cur - (v.window.length - min 7 v.window.length)
        total := s.total + v.chunk.length
        inv := none
        delivered := s.delivered ++ [{ ann := v.ann, reps := v.reps }] } ∧
    ∀ i ∈ decoderSteps, exec i s = .refused .lookaheadMissing

/-! ### The decoder steps: results -/

/-- R89: PREAMBLE. -/
def Obligations.PreambleResult : Prop :=
  ∀ (s : State) (v : Invocation), s.canStep v → markerFits s v →
    s.st = .seekingPreamble → matchAt v.window s.cur s.cfg.catalog.pre = true →
    exec .preamble s = .next
      { s with
        cur := s.cur + 8
        st := .receivingData
        trace := traceAfter s.cur .preamble v s
        inv := some { v with ann := annAfter s.cur .preamble v } }

/-- R90: SKIP. -/
def Obligations.SkipResult : Prop :=
  ∀ (s : State) (v : Invocation), s.canStep v →
    s.st = .seekingPreamble → matchAt v.window s.cur s.cfg.catalog.pre = false →
    exec .skip s = .next { s with cur := s.cur + 1 }

/-- R91: EOF: marker, one report of the buffer as it stood, empty buffer, 4 samples on, SeekingPreamble. -/
def Obligations.EofResult : Prop :=
  ∀ (s : State) (v : Invocation), s.canStep v → markerFits s v →
    s.st = .receivingData → matchAt v.window s.cur s.cfg.catalog.eof = true →
    exec .eof s = .next
      { s with
        cur := s.cur + 4
        st := .seekingPreamble
        fb := []
        trace := traceAfter s.cur .eof v s
        inv := some { v with ann := annAfter s.cur .eof v, reps := v.reps ++ [finalize s.fb] } }

/-- R92 to R96: the four Data steps: marker `4 + k`, push of `k`, 8 samples on, nothing else. -/
def Obligations.DataResult : Prop :=
  ∀ (s : State) (v : Invocation) (i : Instr) (k : Code) (m : Marker),
    (i, k, m) ∈ [(Instr.data00, 0#2, Marker.data00), (.data01, 1#2, .data01), (.data10, 2#2, .data10), (.data11, 3#2, .data11)] →
    s.canStep v → markerFits s v → s.st = .receivingData → matchAt v.window s.cur s.cfg.catalog.eof = false →
    classify s.cfg v.window s.cur = some k → s.fb.length < s.cfg.frameCap →
    m.code = 4#3 + k.setWidth 3 ∧
    exec i s = .next
      { s with
        cur := s.cur + 8
        fb := s.fb ++ [k]
        trace := traceAfter s.cur m v s
        inv := some { v with ann := annAfter s.cur m v } }

/-- R97, R119: CORRUPT (mismatch): marker, partial frame discarded without a report, 4 samples on, SeekingPreamble; nothing saved. -/
def Obligations.CorruptResult : Prop :=
  ∀ (s : State) (v : Invocation), s.canStep v → markerFits s v →
    s.st = .receivingData → matchAt v.window s.cur s.cfg.catalog.eof = false → classify s.cfg v.window s.cur = none →
    exec .corrupt s = .next
      { s with
        cur := s.cur + 4
        st := .seekingPreamble
        fb := []
        trace := traceAfter s.cur .corrupted v s
        inv := some { v with ann := annAfter s.cur .corrupted v } }

/-- R98: CORRUPT (overflow): a Data pattern with a full buffer does what a mismatch does. -/
def Obligations.OverflowResult : Prop :=
  ∀ (s : State) (v : Invocation) (k : Code), s.canStep v → markerFits s v →
    s.st = .receivingData → matchAt v.window s.cur s.cfg.catalog.eof = false → classify s.cfg v.window s.cur = some k →
    s.fb.length = s.cfg.frameCap →
    exec .corruptOvf s = .next
      { s with
        cur := s.cur + 4
        st := .seekingPreamble
        fb := []
        trace := traceAfter s.cur .corrupted v s
        inv := some { v with ann := annAfter s.cur .corrupted v } }

/-! ### The decoder steps: the machine as a whole -/

/-- R88: where a step may be tried, `step()` runs the one of the nine step kinds that the dispatch names, its tests in the order
written. That each of the other eight, given to `exec` there, is refused as `conditionNotMet`, since its Condition does not hold, is a
DESIGN CHOICE of the model (log entry 16). -/
def Obligations.ExactlyOneStepIsSelected : Prop :=
  ∀ (s : State) (v : Invocation), s.canStep v → markerFits s v →
    let i : Instr :=
      if s.st = .seekingPreamble then
        if matchAt v.window s.cur s.cfg.catalog.pre then .preamble else .skip
      else if matchAt v.window s.cur s.cfg.catalog.eof then .eof
      else
        match classify s.cfg v.window s.cur with
        | some k => if s.fb.length < s.cfg.frameCap then dataInstr k else .corruptOvf
        | none => .corrupt
    i ∈ decoderSteps ∧ (∃ t, step s = .next t ∧ exec i s = .next t) ∧
      ∀ j ∈ decoderSteps, j ≠ i → exec j s = .refused .conditionNotMet

/-- R53, R99, R100: what a decoder step that runs does to the cursor, the decoder state, the buffer and the trace is its row of the
table; it runs only in its row's decoder state, and the cursor stays within the window. -/
def Obligations.StepTableRow : Prop :=
  ∀ (i : Instr) (s t : State) (v : Invocation), i ∈ decoderSteps → s.inv = some v → exec i s = .next t →
    s.st = modeOf i ∧ t.st = stepNextState i ∧ t.cur = s.cur + stepAdvance i ∧ t.cur ≤ v.window.length ∧
    t.fb = stepBuffer i s.fb ∧
    t.trace = s.trace ++ ((stepMarker i).map fun m => (s.total - v.tailLen0 + s.cur, m)).toList

/-- The frame of the nine decoder steps: the parameters, `tail`, `total`, `started` and the host's lists are unchanged; of the
transients only `ann` at the cursor's own place (SKIP: nowhere) and, for EOF, `reps` change; `fb` changes only in DATA, EOF and
CORRUPT, `st` only in PREAMBLE, EOF and CORRUPT (R15, R19, R100). -/
def Obligations.DecoderStepFrame : Prop :=
  ∀ (i : Instr) (s t : State) (v : Invocation), i ∈ decoderSteps → s.inv = some v → exec i s = .next t →
    t.cfg = s.cfg ∧ t.started = s.started ∧ t.tail = s.tail ∧ t.total = s.total ∧ t.pending = s.pending ∧
    t.delivered = s.delivered ∧
    (i = .preamble ∨ i = .skip → t.fb = s.fb) ∧
    (i = .skip ∨ i = .data00 ∨ i = .data01 ∨ i = .data10 ∨ i = .data11 → t.st = s.st) ∧
    ∃ w, t.inv = some w ∧ w.chunk = v.chunk ∧ w.tailLen0 = v.tailLen0 ∧ w.window = v.window ∧
      w.ann.length = v.ann.length ∧ (i ≠ .eof → w.reps = v.reps) ∧
      (∀ j, (i = .skip ∨ j + v.tailLen0 ≠ s.cur) → w.ann[j]? = v.ann[j]?)

/-- R24, R25: every step keeps the invariant, from every state that satisfies it. -/
def Obligations.StepKeepsTheInvariant : Prop :=
  ∀ s t : State, s.Inv → step s = .next t → t.Inv

/-- R33, R10: every step keeps the trace ordered, so that no annotation entry is written twice in one invocation. -/
def Obligations.StepKeepsTheTraceOrdered : Prop :=
  ∀ s t : State, s.Inv → s.TraceInv → step s = .next t → t.TraceInv

/-- Both invariants hold in the state after RESET, of every well-formed instance. -/
def Obligations.ResetSatisfiesTheInvariants : Prop :=
  State.reset.Inv ∧ State.reset.TraceInv ∧
  ∀ g : Config, g.wf = true → (State.ofConfig g).Inv ∧ (State.ofConfig g).TraceInv

/-- R101, R40: inside an invocation no step fails: from every state that satisfies the invariant the step answers a next state,
never a fault or a refusal. -/
def Obligations.NoStepFails : Prop :=
  ∀ (s : State) (v : Invocation), s.Inv → s.inv = some v → ∃ t, step s = .next t

/-- R23, R92: the decoder never branches on the contents of the frame buffer: two states that differ only in its contents (not its
length) and in the reports so far take steps that differ only there. -/
def Obligations.BufferContentsDoNotSteer : Prop :=
  ∀ (i : Instr) (s t : State) (v : Invocation) (fb' : List Code) (reps' : List Report),
    i ∈ decoderSteps → s.inv = some v → fb'.length = s.fb.length → exec i s = .next t →
    ∃ t' w w', exec i { s with fb := fb', inv := some { v with reps := reps' } } = .next t' ∧
      t.inv = some w ∧ t'.inv = some w' ∧ t'.fb.length = t.fb.length ∧
      { t' with fb := t.fb, inv := some { w' with reps := w.reps } } = t

/-! ### The Symbol Catalog and decoding -/

/-- R64: `match` is true exactly when the pattern fits at the offset and every sample is equal. -/
def Obligations.MatchIsExactEquality : Prop :=
  ∀ (W : List Sample) (off : Nat) (pat : List Sample),
    matchAt W off pat = true ↔
      off + pat.length ≤ W.length ∧ ∀ i, i < pat.length → W[off + i]? = pat[i]?

/-- R65, R66, R67: with a well-formed catalog `classify` answers `k` exactly when `PAT_D[k]` matches, so at most one does; and that is
so exactly when the sample at the low position of `PAT_D[k]` is `S_LO` and the other seven are `S_HI` (R67, an inference the spec
marks as its own). -/
def Obligations.ClassifyIsTheOneMatch : Prop :=
  ∀ (g : Config) (W : List Sample) (off : Nat) (k : Code), g.wf = true →
    (classify g W off = some k ↔ matchAt W off (g.catalog.data k) = true) ∧
    (classify g W off = some k ↔
      off + 8 ≤ W.length ∧
      ∀ i, i < 8 → W[off + i]? = some (if i = (g.catalog.data k).idxOf g.sLo then g.sLo else g.sHi))

/-- R68: a Data pattern with one sample flipped is never a Data pattern: a decoder step on it in ReceivingData is an EOF where its
first four samples are `PAT_EOF` and a CORRUPT otherwise. -/
def Obligations.OneFlippedSampleIsNoData : Prop :=
  ∀ (g : Config) (k : Code) (i n : Nat), g.wf = true → i < 8 →
    let p := g.catalog.data k
    let W := p.set i (if p[i]? = some g.sLo then g.sHi else g.sLo)
    classify g W 0 = none ∧
    decode g .receivingData n W 0 = .ok (if W.take 4 = g.catalog.eof then .eof else .corrupt)

/-- R46: a window holding a sample that is neither `S_HI` nor `S_LO` matches nothing: it is a SKIP while seeking and, unless its
first four samples are `PAT_EOF`, a CORRUPT while receiving. -/
def Obligations.ForeignSampleMatchesNothing : Prop :=
  ∀ (g : Config) (W : List Sample) (c i n : Nat) (x : Sample), g.wf = true → c + 8 ≤ W.length → i < 8 →
    W[c + i]? = some x → x ≠ g.sHi → x ≠ g.sLo →
    decode g .seekingPreamble n W c = .ok .skip ∧
    (matchAt W c g.catalog.eof = false → decode g .receivingData n W c = .ok .corrupt) ∧
    (i < 4 → decode g .receivingData n W c = .ok .corrupt)

/-- Decode and encode agree (R47, R52, R53): for every well-formed instance whose EOF pattern begins no Data pattern (R8 (e)), every
encoding the encoder gives, at any place of any window with eight samples from there, decodes to its instruction in that
instruction's decoder state: the Data steps where the buffer has room, CORRUPT.OVF where it has none, the others whatever it
holds. For SKIP, CORRUPT and CORRUPT.OVF the encoding is the model's representative window (log entry 11). -/
def Obligations.DecodeOfEncode : Prop :=
  ∀ (g : Config) (i : Instr) (w before after : List Sample) (n : Nat),
    g.wf = true → g.catalog.eofApart = true → encode g i = some w → 8 ≤ w.length + after.length →
    (i = .corruptOvf → ¬ n < g.frameCap) → (i ∈ [Instr.data00, .data01, .data10, .data11] → n < g.frameCap) →
    decode g (modeOf i) n (before ++ w ++ after) before.length = .ok i

/-- The other direction (R52, R53, R54): what the decoder reads as PREAMBLE, EOF or a Data step stands in the window as that
instruction's encoding. -/
def Obligations.DecodedPatternStandsInTheWindow : Prop :=
  ∀ (g : Config) (st : DecoderState) (n : Nat) (W : List Sample) (c : Nat) (i : Instr) (w : List Sample),
    decode g st n W c = .ok i → i ∈ [Instr.preamble, .eof, .data00, .data01, .data10, .data11] → encode g i = some w →
    st = modeOf i ∧ (W.drop c).take w.length = w

/-- R54: with the default catalog, of the 256 windows of two-valued samples one is PREAMBLE and 255 are SKIP while seeking; while
receiving four are Data, 16 are EOF and 236 CORRUPT. -/
def Obligations.DefaultCatalogWindowCounts : Prop :=
  let windows := (List.range 256).map (samplesOfNumber Config.default 8)
  let count (st : DecoderState) (is : List Instr) := windows.countP fun W =>
    is.any fun i => decide (decode Config.default st 0 W 0 = .ok i)
  count .seekingPreamble [.preamble] = 1 ∧ count .seekingPreamble [.skip] = 255 ∧
  count .receivingData [.data00, .data01, .data10, .data11] = 4 ∧ count .receivingData [.eof] = 16 ∧
  count .receivingData [.corrupt] = 236

/-- The pattern words of the default catalog, written out from R50, decode to their steps (R53). -/
def Obligations.DefaultWordsDecode : Prop :=
  decode Config.default .seekingPreamble 0 [0,1,1,1,1,0,1,1] 0 = .ok .preamble ∧
  decode Config.default .seekingPreamble 0 [1,1,1,1,1,1,1,1] 0 = .ok .skip ∧
  decode Config.default .receivingData 0 [1,1,0,1,1,1,1,1] 0 = .ok .eof ∧
  decode Config.default .receivingData 0 [1,0,1,1,1,1,1,1] 0 = .ok .data00 ∧
  decode Config.default .receivingData 0 [1,1,1,0,1,1,1,1] 0 = .ok .data01 ∧
  decode Config.default .receivingData 0 [1,1,1,1,1,0,1,1] 0 = .ok .data10 ∧
  decode Config.default .receivingData 0 [1,1,1,1,1,1,1,0] 0 = .ok .data11 ∧
  decode Config.default .receivingData 1024 [1,0,1,1,1,1,1,1] 0 = .ok .corruptOvf ∧
  decode Config.default .receivingData 0 [0,1,1,1,1,0,1,1] 0 = .ok .corrupt

/-- R142: with the default catalog three consecutive Data symbols never contain `PAT_PRE` at any offset, but a frame ending `D2 E`
followed by a high sample does. -/
def Obligations.FalsePreambleOnlyAtAFrameEnd : Prop :=
  (∀ a b c : Code, ∀ off : Fin 17,
    matchAt (symbolSamples Config.default [a, b, c]) off Config.default.catalog.pre = false) ∧
  matchAt (symbolSamples Config.default [2#2] ++ Config.default.catalog.eof ++ [1]) 5 Config.default.catalog.pre = true

/-! ### The Frame Accumulator -/

/-- R35: a run of symbols packs least-significant first: bits `[2j+1 : 2j]` hold symbol `j`, and there are no more bits. -/
def Obligations.SymbolsPackLeastSignificantFirst : Prop :=
  ∀ cs : List Code,
    (∀ (j : Nat) (h : j < cs.length), (pack cs >>> (2 * j)) % 4 = cs[j].toNat) ∧ pack cs < 2 ^ (2 * cs.length)

/-- R78: `to_value(a, b)` folds the symbols whose index `i` satisfies `max(a,0) ≤ i < min(b, fcnt)`, 0 when there is none. -/
def Obligations.ToValueFoldsTheClampedRange : Prop :=
  ∀ (fb : List Code) (a b : Int),
    (min b fb.length ≤ max a 0 → toValue fb a b = 0) ∧
    (∀ (j i : Nat), (i : Int) = max a 0 + j → (i : Int) < min b fb.length →
      (fb[i]?).map BitVec.toNat = some ((toValue fb a b >>> (2 * j)) % 4)) ∧
    (max a 0 ≤ min b fb.length → toValue fb a b < 2 ^ (2 * (min b fb.length - max a 0).toNat))

/-- R37, R72: byte `k` of the whole frame's value is made of symbols `4k` to `4k+3`, an absent symbol read as 0. -/
def Obligations.BytesOfTheFrame : Prop :=
  ∀ (fb : List Code) (k : Nat),
    byteOf (toValue fb 0 fb.length) k =
      (fb.getD (4 * k + 3) 0#2 ++ fb.getD (4 * k + 2) 0#2 ++ fb.getD (4 * k + 1) 0#2 ++ fb.getD (4 * k) 0#2)

/-- R81, R82: for `N ≥ 16` the four fields of the report are disjoint ranges that make up the whole frame: the frame's value is flag,
command, payload and CRC field laid one after the other. -/
def Obligations.FieldsMakeUpTheFrame : Prop :=
  ∀ fb : List Code, 16 ≤ fb.length →
    let r := finalize fb
    r.short = false ∧ r.nSym = fb.length ∧ r.payloadSyms = fb.length - 16 ∧ r.payload < 2 ^ (2 * r.payloadSyms) ∧
    toValue fb 0 fb.length =
      r.flag.toNat + 2 ^ 8 * r.command.toNat + 2 ^ 16 * r.payload + 2 ^ (2 * fb.length - 16) * r.crcField.toNat

/-- R83, R84: the report's fields are the values of R83, none of them cut by its width. -/
def Obligations.ReportFields : Prop :=
  ∀ fb : List Code,
    let n : Int := fb.length
    (finalize fb).nSym = fb.length ∧
    (finalize fb).flag.toNat = toValue fb 0 4 ∧
    (finalize fb).command.toNat = toValue fb 4 8 ∧
    (finalize fb).payloadSyms = (max (n - 16) 0).toNat ∧
    (finalize fb).payload = toValue fb 8 (n - 8) ∧
    (finalize fb).payload < 2 ^ (2 * (finalize fb).payloadSyms) ∧
    (finalize fb).crcField.toNat = toValue fb (n - 8) n ∧
    ((finalize fb).crcOk = true ↔ crcReg (toValue fb 0 n) (2 * fb.length) = 0xF0B8#16) ∧
    ((finalize fb).short = true ↔ fb.length < 16)

/-! ### The CRC-16 Validator -/

/-- R70, R71: seed 0xFFFF; `ceil(bit_count / 8)` bytes; byte `n` is XORed into the register and eight rounds follow, each a logical
shift right with the polynomial XORed in when the low bit was set; the frame is valid iff the final register is 0xF0B8. -/
def Obligations.CrcAlgorithm : Prop :=
  (∀ v, crcReg v 0 = 0xFFFF#16) ∧
  (∀ v n, crcReg v n = crcReg v (8 * ((n + 7) / 8))) ∧
  (∀ v n, crcReg v (8 * (n + 1)) =
    Nat.repeat crcRound 8 (crcReg v (8 * n) ^^^ BitVec.ofNat 16 (v / 2 ^ (8 * n) % 256))) ∧
  (∀ r : CrcWord, (crcRound r).toNat = if r.toNat % 2 = 1 then (r.toNat / 2) ^^^ 0x8408 else r.toNat / 2) ∧
  (∀ v n, validate v n = true ↔ crcReg v n = 0xF0B8#16)

/-- R75: the worked example, register after each byte, the residue, the complement, and every one of the 40 single-bit flips fails. -/
def Obligations.CrcWorkedExample : Prop :=
  crcReg 0x26 8 = 0x4BB3#16 ∧ crcReg 0x0126 16 = 0x96D2#16 ∧ crcReg 0x000126 24 = 0xF509#16 ∧
  crcReg 0xF6000126 32 = 0x0F8D#16 ∧ crcReg 0x0AF6000126 40 = 0xF0B8#16 ∧ validate 0x0AF6000126 40 = true ∧
  0xF509#16 ^^^ 0xFFFF#16 = 0x0AF6#16 ∧
  (∀ i : Fin 40, validate (0x0AF6000126 ^^^ 2 ^ i.val) 40 = false)

/-- The single-bit property of R75 and vector S6 for every value: flipping one bit of the value changes the register, so a value
that validates no longer does. -/
def Obligations.OneFlippedBitFailsTheCrc : Prop :=
  ∀ v n i : Nat, i < n →
    crcReg (v ^^^ 2 ^ i) n ≠ crcReg v n ∧ (validate v n = true → validate (v ^^^ 2 ^ i) n = false)

/-- R74: for a frame of bytes `d` followed by two more, the CRC passes exactly when the two are the complement of the register after
`d`, low byte first. -/
def Obligations.CrcPassesExactlyForTheTransmittedCrc : Prop :=
  ∀ (d : List Byte) (x y : Byte),
    let c := crcComplement d
    (finalize ((d ++ [x, y]).flatMap byteSymbols)).crcOk = true ↔ x = c.extractLsb' 0 8 ∧ y = c.extractLsb' 8 8

/-! ### PROCESS -/

/-- R103, R106 to R109, R111: PROCESS completes for every chunk the host may send: all samples are received, the tail is the last 7
samples of the window, the cursor has moved on to a place where fewer than eight samples are left and is an index into the tail,
and exactly one delivery is made, its annotation as long as the chunk. -/
def Obligations.ProcessCompletes : Prop :=
  ∀ (s : State) (new : List Sample), s.Inv → s.inv = none → s.started = true → (Instr.process new).wf s.cfg = true →
    ∃ t d, exec (.process new) s = .next t ∧ t.Inv ∧ t.inv = none ∧
      t.cfg = s.cfg ∧ t.started = true ∧ t.pending = s.pending ∧
      t.tail = (s.tail ++ new).drop ((s.tail ++ new).length - 7) ∧
      t.total = s.total + new.length ∧
      s.base + s.cur ≤ t.base + t.cur ∧ t.total < t.base + t.cur + 8 ∧
      t.delivered = s.delivered ++ [d] ∧ d.ann.length = new.length

/-- The machine's steps carry out PROCESS: from a state between commands whose next command is PROCESS(new), at most `n + 9` steps
(the opening, at most `n + 7` decoder steps, R107, and the end) reach the state of the whole command. -/
def Obligations.StepsCarryOutProcess : Prop :=
  ∀ (s t : State) (new : List Sample) (rest : List HostCommand), s.Inv → s.inv = none →
    s.pending = .process new :: rest → exec (.process new) { s with pending := rest } = .next t →
    ∃ k, k ≤ new.length + 9 ∧ Host.Core.run core k s = .next t

/-- R113 (a): an empty chunk leaves every element unchanged and returns an empty annotation and no report. -/
def Obligations.EmptyChunkChangesNothing : Prop :=
  ∀ s : State, s.Inv → s.inv = none → s.started = true →
    exec (.process []) s = .next { s with delivered := s.delivered ++ [{ ann := [], reps := [] }] }

/-- R114: independence from the chunking: two ways of cutting the same stream, from the same state between commands, give the same
trace, the same reports and the same final state; only the annotation sequences may differ. -/
def Obligations.ChunkingDoesNotMatter : Prop :=
  ∀ (s t u : State) (cs ds : List (List Sample)), s.Inv → s.inv = none → cs.flatten = ds.flatten →
    runChunks cs s = .next t → runChunks ds s = .next u →
    t.trace = u.trace ∧
    reportsOf (t.delivered.drop s.delivered.length) = reportsOf (u.delivered.drop s.delivered.length) ∧
    t.st = u.st ∧ t.fb = u.fb ∧ t.total = u.total ∧ t.tail = u.tail ∧ t.cur = u.cur ∧ t.base + t.cur = u.base + u.cur

/-- R24 (b): after RESET and any PROCESS commands the tail is the last 7 samples (all, when there are fewer) of the whole stream, and
`total` its length. -/
def Obligations.TailIsTheEndOfTheStream : Prop :=
  ∀ (g : Config) (cs : List (List Sample)) (t : State), g.wf = true → runChunks cs (State.ofConfig g) = .next t →
    t.tail = cs.flatten.drop (cs.flatten.length - 7) ∧ t.total = cs.flatten.length ∧ t.tail.length = min 7 t.total

/-- R110, R115, R57: which markers reach the annotation stream: those of the new trace entries whose window began in this chunk, each
at its first sample; every other entry is NONE. A step's window ends in this chunk. -/
def Obligations.AnnotationShowsTheMarkersOfThisChunk : Prop :=
  ∀ (s t : State) (new : List Sample), s.Inv → s.TraceInv → s.inv = none → exec (.process new) s = .next t →
    ∃ d es, t.delivered = s.delivered ++ [d] ∧ t.trace = s.trace ++ es ∧ d.ann.length = new.length ∧
      (∀ e ∈ es, s.total ≤ e.1 + 7 ∧ e.1 + 7 < s.total + new.length) ∧
      (∀ (j : Nat) (k : Marker), k ≠ .none → (d.ann[j]? = some k ↔ (s.total + j, k) ∈ es))

/-- R140: a chunk of fewer than 8 samples delivers no marker. -/
def Obligations.ShortChunkDeliversNoMarker : Prop :=
  ∀ (s t : State) (new : List Sample), s.Inv → s.TraceInv → s.inv = none → new.length < 8 →
    exec (.process new) s = .next t →
    ∃ reps, t.delivered = s.delivered ++ [{ ann := List.replicate new.length .none, reps := reps }]

/-- R90 (vector S4): a stream with no Preamble in it leaves the decoder seeking, with no marker and no report; the cursor passes one
sample per window. -/
def Obligations.NoPreambleNoSymbol : Prop :=
  ∀ (s t : State) (new : List Sample), s.Inv → s.inv = none → s.st = .seekingPreamble →
    (∀ off, s.cur ≤ off → matchAt (s.tail ++ new) off s.cfg.catalog.pre = false) →
    exec (.process new) s = .next t →
    t.st = .seekingPreamble ∧ t.fb = [] ∧ t.trace = s.trace ∧
    t.delivered = s.delivered ++ [{ ann := List.replicate new.length .none, reps := [] }] ∧
    t.base + t.cur = max (s.base + s.cur) (t.total - 7)

/-- A frame is decoded (R80, R83, R89, R91, R92, R112): from any good state between commands that seeks, one chunk holding any lead-in
in which no Preamble begins, a Preamble, any Data symbols up to the capacity, an EOF and four more samples delivers one report, that
of those symbols; the markers stand where the symbols begin. The catalog's EOF begins no Data pattern (R8 (e)). -/
def Obligations.FrameIsDecoded : Prop :=
  ∀ (s : State) (lead : List Sample) (ks : List Code) (la : List Sample), s.Inv → s.inv = none → s.started = true →
    s.st = .seekingPreamble → s.cfg.catalog.eofApart = true → ks.length ≤ s.cfg.frameCap → la.length = 4 →
    let new := lead ++ frameOfSymbols s.cfg ks ++ la
    (Instr.process new).wf s.cfg = true → s.quietUntil (s.tail ++ new) (s.tail.length + lead.length) →
    let p := s.total + lead.length
    ∃ t d, exec (.process new) s = .next t ∧ t.st = .seekingPreamble ∧ t.fb = [] ∧ t.cur = 3 ∧
      t.delivered = s.delivered ++ [d] ∧ d.reps = [finalize ks] ∧
      t.trace = s.trace ++ [(p, .preamble)] ++ ks.mapIdx (fun i k => (p + 8 + 8 * i, dataMarker k)) ++
        [(p + 8 + 8 * ks.length, .eof)]

/-- The round trip of a request (R60, R74, R85): from any good state between commands that seeks, the stream of `REQ` for a flag byte,
a command byte and any payload bytes, after any lead-in in which no Preamble begins and with four more samples, is decoded to a report
with exactly those bytes and a passing CRC. -/
def Obligations.RequestIsDecodedWithGoodCrc : Prop :=
  ∀ (s : State) (lead : List Sample) (f c : Byte) (ps : List Byte) (la : List Sample), s.Inv → s.inv = none →
    s.started = true → s.st = .seekingPreamble → s.cfg.catalog.eofApart = true →
    4 * (ps.length + 4) ≤ s.cfg.frameCap → la.length = 4 →
    let new := lead ++ request s.cfg (f :: c :: ps) ++ la
    (Instr.process new).wf s.cfg = true → s.quietUntil (s.tail ++ new) (s.tail.length + lead.length) →
    ∃ t d, exec (.process new) s = .next t ∧ t.delivered = s.delivered ++ [d] ∧
      d.reps = [{ nSym := 4 * (ps.length + 4), flag := f, command := c, payloadSyms := 4 * ps.length,
                  payload := bytesValue ps, crcField := crcComplement (f :: c :: ps), crcOk := true, short := false }]

/-- R144: no gap is needed between frames: from any good state between commands that seeks, one chunk holding any lead-in in which no
Preamble begins, any number of frames, each within the capacity, one straight after another, and four more samples delivers one report
per frame, in order. -/
def Obligations.ConsecutiveFramesAreDecoded : Prop :=
  ∀ (s : State) (lead : List Sample) (kss : List (List Code)) (la : List Sample), s.Inv → s.inv = none →
    s.started = true → s.st = .seekingPreamble → s.cfg.catalog.eofApart = true →
    (∀ ks ∈ kss, ks.length ≤ s.cfg.frameCap) → la.length = 4 →
    let new := lead ++ kss.flatMap (frameOfSymbols s.cfg) ++ la
    (Instr.process new).wf s.cfg = true → s.quietUntil (s.tail ++ new) (s.tail.length + lead.length) →
    ∃ t d, exec (.process new) s = .next t ∧ t.st = .seekingPreamble ∧ t.fb = [] ∧
      t.delivered = s.delivered ++ [d] ∧ d.reps = kss.map finalize

/-- R139 (b), R112, R115: an EOF in the last four samples supplied is not decoded; the next four samples, of any value, bring its
report, in that invocation, and its marker is dropped. The frame may follow any lead-in in which no Preamble begins, from any good
state between commands that seeks. -/
def Obligations.EofWaitsForFourMoreSamples : Prop :=
  ∀ (s : State) (lead : List Sample) (ks : List Code), s.Inv → s.inv = none → s.started = true →
    s.st = .seekingPreamble → s.cfg.catalog.eofApart = true → ks.length ≤ s.cfg.frameCap →
    let new := lead ++ frameOfSymbols s.cfg ks
    (Instr.process new).wf s.cfg = true → s.quietUntil (s.tail ++ new) (s.tail.length + lead.length) →
    ∃ t d, exec (.process new) s = .next t ∧ t.st = .receivingData ∧ t.fb = ks ∧
      t.delivered = s.delivered ++ [d] ∧ d.reps = [] ∧
      ∀ la : List Sample, la.length = 4 → samplesFit s.cfg la = true →
        ∃ u, exec (.process la) t = .next u ∧ u.st = .seekingPreamble ∧ u.fb = [] ∧
          u.delivered = t.delivered ++ [{ ann := List.replicate 4 .none, reps := [finalize ks] }]

/-- R97 (b), R143: a Preamble under the cursor while a frame is received is corruption, not a restart, and the search goes on 4
samples after its first sample; so for a catalog whose Preamble is no Data pattern and does not begin with `PAT_EOF`, as the default
one. The last three clauses are about the default catalog of R50, PRESUMED (log entry 2), and say that it is well formed, has R8 (f)
and is such a catalog. -/
def Obligations.PreambleInsideAFrameIsLost : Prop :=
  (∀ (s : State) (v : Invocation), s.canStep v → markerFits s v → s.cfg.wf = true → s.cfg.catalog.preApart = true →
    s.cfg.catalog.pre.take 4 ≠ s.cfg.catalog.eof → s.st = .receivingData →
    matchAt v.window s.cur s.cfg.catalog.pre = true →
    decodeAt v s = .ok .corrupt ∧
    ∃ t, step s = .next t ∧ t.st = .seekingPreamble ∧ t.fb = [] ∧ t.cur = s.cur + 4) ∧
  Config.default.wf = true ∧ Config.default.catalog.preApart = true ∧
  Config.default.catalog.pre.take 4 ≠ Config.default.catalog.eof

/-- R24 (b) as a step lemma: where the tail is the last 7 samples (all, when there are fewer) of the stream received since RESET and
`total` its length, every PROCESS(new) that completes leaves them so for the stream followed by `new`; RESET leaves them so for the
empty stream. -/
def Obligations.ProcessExtendsTheStream : Prop :=
  (∀ (s t : State) (xs new : List Sample), s.follows xs → exec (.process new) s = .next t → t.follows (xs ++ new)) ∧
  (∀ s t : State, exec .reset s = .next t → t.follows [])
end

