-- ==== Sys2Proof/Laws/Crc.lean ====
section
/-! SUPPORT. The CRC register: its recursion over bytes, and the linearity and invertibility of a round. -/

namespace Sys2Proof.Machine

@[simp] theorem crcReg_zero (v : Nat) : crcReg v 0 = crcSeed := rfl

/-- The register over whole bytes, one byte at a time (R70). -/
theorem crcReg_bytes_succ (v n : Nat) : crcReg v (8 * (n + 1)) = crcByte (crcReg v (8 * n)) (byteOf v n) := by
  unfold crcReg
  have h1 : (8 * (n + 1) + 7) / 8 = n + 1 := by omega
  have h2 : (8 * n + 7) / 8 = n := by omega
  rw [h1, h2, List.range_succ, List.foldl_append]
  rfl

/-- A partial last byte is processed as a whole byte (R73 (b)). -/
theorem crcReg_ceil (v n : Nat) : crcReg v n = crcReg v (8 * ((n + 7) / 8)) := by
  unfold crcReg
  congr 2
  omega

/-- A round is linear. -/
theorem crcRound_xor (a b : CrcWord) : crcRound (a ^^^ b) = crcRound a ^^^ crcRound b := by
  unfold crcRound
  rw [BitVec.getLsbD_xor]
  have h : (a ^^^ b) >>> 1 = a >>> 1 ^^^ b >>> 1 := by
    ext i hi; simp
  rw [h]
  generalize a >>> 1 = x
  generalize b >>> 1 = y
  generalize crcPoly = p
  cases a.getLsbD 0 <;> cases b.getLsbD 0
  · rfl
  · exact BitVec.xor_assoc ..
  · change x ^^^ y ^^^ p = x ^^^ p ^^^ y
    ac_rfl
  · ext i hi
    simp [Bool.xor_left_comm, Bool.xor_comm]

/-- A round loses nothing: bit 15 of the result tells whether the low bit was set. -/
theorem crcRound_injective {a b : CrcWord} (h : crcRound a = crcRound b) : a = b := by
  have h15 : ∀ x : CrcWord, (crcRound x).getLsbD 15 = x.getLsbD 0 := by
    intro x
    unfold crcRound
    cases hx : x.getLsbD 0 <;> simp [crcPoly]
  have h0 : a.getLsbD 0 = b.getLsbD 0 := by rw [← h15 a, ← h15 b, h]
  have hs : a >>> 1 = b >>> 1 := by
    unfold crcRound at h
    rw [h0] at h
    cases hb : b.getLsbD 0 <;> simp_all
  apply BitVec.eq_of_getLsbD_eq
  intro i hi
  cases i with
  | zero => exact h0
  | succ j =>
    have := congrArg (fun x => BitVec.getLsbD x j) hs
    simpa [Nat.add_comm] using this

/-- Different registers stay different over a byte. -/
theorem crcByte_injective_reg {a b : CrcWord} {x : Byte} (h : crcByte a x = crcByte b x) : a = b := by
  unfold crcByte at h
  have := crcRound_injective (crcRound_injective (crcRound_injective (crcRound_injective (crcRound_injective
    (crcRound_injective (crcRound_injective (crcRound_injective h)))))))
  exact (BitVec.xor_left_inj _).mp this

/-- Different bytes give different registers. -/
theorem crcByte_injective_byte {a : CrcWord} {x y : Byte} (h : crcByte a x = crcByte a y) : x = y := by
  unfold crcByte at h
  have := crcRound_injective (crcRound_injective (crcRound_injective (crcRound_injective (crcRound_injective
    (crcRound_injective (crcRound_injective (crcRound_injective h)))))))
  have h2 : x.setWidth 16 = y.setWidth 16 := (BitVec.xor_right_inj _).mp this
  have h3 := congrArg (BitVec.setWidth 8) h2
  simpa using h3

end Sys2Proof.Machine
end

