-- ==== Sys2Proof/Laws/Decode.lean ====
section
/-! SUPPORT. What the Symbol Catalog and the decoder can answer. -/

namespace Sys2Proof

/-- `match` by elements (R64). -/
theorem matchAt_iff_take {W : List Sample} {off : Nat} {pat : List Sample} :
    matchAt W off pat = true ↔ off + pat.length ≤ W.length ∧ (W.drop off).take pat.length = pat := by
  simp [matchAt]

/-- A pattern matches at the place where it stands. -/
theorem matchAt_append_self (before pat after : List Sample) :
    matchAt (before ++ (pat ++ after)) before.length pat = true := by
  simp [matchAt_iff_take]

/-- `match` depends only on the samples it reads (R39). -/
theorem matchAt_drop {W : List Sample} {off : Nat} {pat : List Sample} (h : off ≤ W.length) :
    matchAt W off pat = matchAt (W.drop off) 0 pat := by
  rw [Bool.eq_iff_iff, matchAt_iff_take, matchAt_iff_take]
  simp only [List.length_drop, List.drop_zero]
  constructor <;> rintro ⟨a, b⟩ <;> exact ⟨by omega, b⟩

/-- Two patterns of one length cannot match at one place unless they are equal (R65). -/
theorem matchAt_unique {W : List Sample} {off : Nat} {p q : List Sample} (hl : p.length = q.length)
    (hp : matchAt W off p = true) (hq : matchAt W off q = true) : p = q := by
  rw [matchAt_iff_take] at hp hq
  rw [← hp.2, ← hq.2, hl]

/-- `classify` answers a code whose pattern matches (R66). -/
theorem classify_some {g : Config} {W : List Sample} {off : Nat} {k : Code} (h : classify g W off = some k) :
    matchAt W off (g.catalog.data k) = true := by
  unfold classify at h
  split at h
  · cases h; assumption
  · split at h
    · cases h; assumption
    · split at h
      · cases h; assumption
      · split at h
        · cases h; assumption
        · cases h

/-- Every code is one of the four. -/
theorem code_cases (k : Code) : k = 0#2 ∨ k = 1#2 ∨ k = 2#2 ∨ k = 3#2 := by
  revert k; decide

/-- `classify` answers none exactly when no Data pattern matches (R66). -/
theorem classify_none {g : Config} {W : List Sample} {off : Nat} :
    classify g W off = none ↔ ∀ k, matchAt W off (g.catalog.data k) = false := by
  unfold classify
  constructor
  · intro h k
    split at h
    · cases h
    · split at h
      · cases h
      · split at h
        · cases h
        · split at h
          · cases h
          · rcases code_cases k with rfl | rfl | rfl | rfl <;> simp_all
  · intro h
    simp [h]

@[simp] theorem data_zero (c : Catalog) : c.data 0#2 = c.d00 := rfl
@[simp] theorem data_one (c : Catalog) : c.data 1#2 = c.d01 := rfl
@[simp] theorem data_two (c : Catalog) : c.data 2#2 = c.d10 := rfl
@[simp] theorem data_three (c : Catalog) : c.data 3#2 = c.d11 := rfl

@[simp] theorem dataInstr_zero : dataInstr 0#2 = .data00 := rfl
@[simp] theorem dataInstr_one : dataInstr 1#2 = .data01 := rfl
@[simp] theorem dataInstr_two : dataInstr 2#2 = .data10 := rfl
@[simp] theorem dataInstr_three : dataInstr 3#2 = .data11 := rfl

/-! ### What a well-formed instance says (R8) -/

/-- One Data pattern of a well-formed catalog, as propositions. -/
theorem dataPatternWf_iff {hi lo : Sample} {p : List Sample} :
    dataPatternWf hi lo p = true ↔ p.length = 8 ∧ (∀ x ∈ p, x = hi ∨ x = lo) ∧ p.count lo = 1 := by
  simp [dataPatternWf, and_assoc]

/-- The parts of `Config.wf` by name (R7, R8). -/
structure WfParts (g : Config) : Prop where
  hi_ne_lo : g.sHi ≠ g.sLo
  hi_lt : g.sHi < 2 ^ g.sampleW
  lo_lt : g.sLo < 2 ^ g.sampleW
  cap_pos : 1 ≤ g.frameCap
  pre_length : g.catalog.pre.length = 8
  pre_mem : ∀ x ∈ g.catalog.pre, x = g.sHi ∨ x = g.sLo
  eof_length : g.catalog.eof.length = 4
  eof_mem : ∀ x ∈ g.catalog.eof, x = g.sHi ∨ x = g.sLo
  data_length : ∀ k, (g.catalog.data k).length = 8
  data_mem : ∀ k, ∀ x ∈ g.catalog.data k, x = g.sHi ∨ x = g.sLo
  data_count : ∀ k, (g.catalog.data k).count g.sLo = 1
  data_injective : ∀ j k, g.catalog.data j = g.catalog.data k → j = k

theorem Config.wf_parts {g : Config} (h : g.wf = true) : WfParts g := by
  simp only [Config.wf, Catalog.wf, Bool.and_eq_true, bne_iff_ne, ne_eq, decide_eq_true_eq, beq_iff_eq, List.all_eq_true,
    Bool.or_eq_true, dataPatternWf_iff, frameLen, eofLen] at h
  obtain ⟨⟨⟨⟨h1, h2⟩, h3⟩, h4⟩,
    ⟨⟨⟨⟨⟨⟨⟨⟨⟨⟨⟨⟨⟨p1, p2⟩, e1⟩, e2⟩, a0⟩, a1⟩, a2⟩, a3⟩, n01⟩, n02⟩, n03⟩, n12⟩, n13⟩, n23⟩⟩ := h
  exact {
    hi_ne_lo := h1, hi_lt := h2, lo_lt := h3, cap_pos := h4
    pre_length := p1, pre_mem := p2, eof_length := e1, eof_mem := e2
    data_length := fun k => by
      rcases code_cases k with rfl | rfl | rfl | rfl
      exacts [a0.1, a1.1, a2.1, a3.1]
    data_mem := fun k => by
      rcases code_cases k with rfl | rfl | rfl | rfl
      exacts [a0.2.1, a1.2.1, a2.2.1, a3.2.1]
    data_count := fun k => by
      rcases code_cases k with rfl | rfl | rfl | rfl
      exacts [a0.2.2, a1.2.2, a2.2.2, a3.2.2]
    data_injective := fun j k hjk => by
      rcases code_cases j with rfl | rfl | rfl | rfl <;> rcases code_cases k with rfl | rfl | rfl | rfl <;>
        simp_all }

/-! ### What the decoder can answer -/

/-- Every answer of the decoder and when it is given (R88). -/
theorem decode_eq_ok {g : Config} {st : DecoderState} {n : Nat} {W : List Sample} {c : Nat} {i : Instr}
    (h : decode g st n W c = .ok i) :
    c + 8 ≤ W.length ∧
    ((st = .seekingPreamble ∧ matchAt W c g.catalog.pre = true ∧ i = .preamble) ∨
     (st = .seekingPreamble ∧ matchAt W c g.catalog.pre = false ∧ i = .skip) ∨
     (st = .receivingData ∧ matchAt W c g.catalog.eof = true ∧ i = .eof) ∨
     (st = .receivingData ∧ matchAt W c g.catalog.eof = false ∧
        ∃ k, classify g W c = some k ∧ n < g.frameCap ∧ i = dataInstr k) ∨
     (st = .receivingData ∧ matchAt W c g.catalog.eof = false ∧
        (∃ k, classify g W c = some k) ∧ ¬ n < g.frameCap ∧ i = .corruptOvf) ∨
     (st = .receivingData ∧ matchAt W c g.catalog.eof = false ∧ classify g W c = none ∧ i = .corrupt)) := by
  unfold decode at h
  split at h
  case isFalse => cases h
  case isTrue hl =>
    refine ⟨hl, ?_⟩
    cases st with
    | seekingPreamble =>
      cases hm : matchAt W c g.catalog.pre <;> simp_all
    | receivingData =>
      cases hm : matchAt W c g.catalog.eof
      · cases hc : classify g W c with
        | none => simp_all
        | some k => by_cases hn : n < g.frameCap <;> simp_all
      · simp_all

/-- With eight samples from the cursor the decoder always answers (R54). -/
theorem decode_total {g : Config} {st : DecoderState} {n : Nat} {W : List Sample} {c : Nat} (h : c + 8 ≤ W.length) :
    ∃ i, decode g st n W c = .ok i := by
  unfold decode
  rw [if_pos h]
  cases st
  · cases matchAt W c g.catalog.pre <;> simp
  · cases matchAt W c g.catalog.eof
    · cases classify g W c with
      | none => simp
      | some k => by_cases hn : n < g.frameCap <;> simp [hn]
    · simp

end Sys2Proof
end

