-- ==== Sys2Proof/Laws/State.lean ====
section
/-! SUPPORT. One lemma per field per update of the state, each true by unfolding, so that no later proof unfolds a record update;
and the laws of outcomes. -/

namespace Sys2Proof.Machine

@[simp] theorem advance_cfg (n : Nat) (s : State) : (advance n s).cfg = s.cfg := rfl
@[simp] theorem advance_started (n : Nat) (s : State) : (advance n s).started = s.started := rfl
@[simp] theorem advance_st (n : Nat) (s : State) : (advance n s).st = s.st := rfl
@[simp] theorem advance_cur (n : Nat) (s : State) : (advance n s).cur = s.cur + n := rfl
@[simp] theorem advance_tail (n : Nat) (s : State) : (advance n s).tail = s.tail := rfl
@[simp] theorem advance_fb (n : Nat) (s : State) : (advance n s).fb = s.fb := rfl
@[simp] theorem advance_total (n : Nat) (s : State) : (advance n s).total = s.total := rfl
@[simp] theorem advance_trace (n : Nat) (s : State) : (advance n s).trace = s.trace := rfl
@[simp] theorem advance_inv (n : Nat) (s : State) : (advance n s).inv = s.inv := rfl
@[simp] theorem advance_pending (n : Nat) (s : State) : (advance n s).pending = s.pending := rfl
@[simp] theorem advance_delivered (n : Nat) (s : State) : (advance n s).delivered = s.delivered := rfl

@[simp] theorem setMode_cfg (m : DecoderState) (s : State) : (setMode m s).cfg = s.cfg := rfl
@[simp] theorem setMode_started (m : DecoderState) (s : State) : (setMode m s).started = s.started := rfl
@[simp] theorem setMode_st (m : DecoderState) (s : State) : (setMode m s).st = m := rfl
@[simp] theorem setMode_cur (m : DecoderState) (s : State) : (setMode m s).cur = s.cur := rfl
@[simp] theorem setMode_tail (m : DecoderState) (s : State) : (setMode m s).tail = s.tail := rfl
@[simp] theorem setMode_fb (m : DecoderState) (s : State) : (setMode m s).fb = s.fb := rfl
@[simp] theorem setMode_total (m : DecoderState) (s : State) : (setMode m s).total = s.total := rfl
@[simp] theorem setMode_trace (m : DecoderState) (s : State) : (setMode m s).trace = s.trace := rfl
@[simp] theorem setMode_inv (m : DecoderState) (s : State) : (setMode m s).inv = s.inv := rfl
@[simp] theorem setMode_pending (m : DecoderState) (s : State) : (setMode m s).pending = s.pending := rfl
@[simp] theorem setMode_delivered (m : DecoderState) (s : State) : (setMode m s).delivered = s.delivered := rfl

@[simp] theorem push_cfg (k : Code) (s : State) : (push k s).cfg = s.cfg := rfl
@[simp] theorem push_started (k : Code) (s : State) : (push k s).started = s.started := rfl
@[simp] theorem push_st (k : Code) (s : State) : (push k s).st = s.st := rfl
@[simp] theorem push_cur (k : Code) (s : State) : (push k s).cur = s.cur := rfl
@[simp] theorem push_tail (k : Code) (s : State) : (push k s).tail = s.tail := rfl
@[simp] theorem push_fb (k : Code) (s : State) : (push k s).fb = s.fb ++ [k] := rfl
@[simp] theorem push_total (k : Code) (s : State) : (push k s).total = s.total := rfl
@[simp] theorem push_trace (k : Code) (s : State) : (push k s).trace = s.trace := rfl
@[simp] theorem push_inv (k : Code) (s : State) : (push k s).inv = s.inv := rfl
@[simp] theorem push_pending (k : Code) (s : State) : (push k s).pending = s.pending := rfl
@[simp] theorem push_delivered (k : Code) (s : State) : (push k s).delivered = s.delivered := rfl

@[simp] theorem resetFb_cfg (s : State) : (resetFb s).cfg = s.cfg := rfl
@[simp] theorem resetFb_started (s : State) : (resetFb s).started = s.started := rfl
@[simp] theorem resetFb_st (s : State) : (resetFb s).st = s.st := rfl
@[simp] theorem resetFb_cur (s : State) : (resetFb s).cur = s.cur := rfl
@[simp] theorem resetFb_tail (s : State) : (resetFb s).tail = s.tail := rfl
@[simp] theorem resetFb_fb (s : State) : (resetFb s).fb = [] := rfl
@[simp] theorem resetFb_total (s : State) : (resetFb s).total = s.total := rfl
@[simp] theorem resetFb_trace (s : State) : (resetFb s).trace = s.trace := rfl
@[simp] theorem resetFb_inv (s : State) : (resetFb s).inv = s.inv := rfl
@[simp] theorem resetFb_pending (s : State) : (resetFb s).pending = s.pending := rfl
@[simp] theorem resetFb_delivered (s : State) : (resetFb s).delivered = s.delivered := rfl

@[simp] theorem appendReport_cfg (r : Report) (s : State) : (appendReport r s).cfg = s.cfg := rfl
@[simp] theorem appendReport_started (r : Report) (s : State) : (appendReport r s).started = s.started := rfl
@[simp] theorem appendReport_st (r : Report) (s : State) : (appendReport r s).st = s.st := rfl
@[simp] theorem appendReport_cur (r : Report) (s : State) : (appendReport r s).cur = s.cur := rfl
@[simp] theorem appendReport_tail (r : Report) (s : State) : (appendReport r s).tail = s.tail := rfl
@[simp] theorem appendReport_fb (r : Report) (s : State) : (appendReport r s).fb = s.fb := rfl
@[simp] theorem appendReport_total (r : Report) (s : State) : (appendReport r s).total = s.total := rfl
@[simp] theorem appendReport_trace (r : Report) (s : State) : (appendReport r s).trace = s.trace := rfl
@[simp] theorem appendReport_inv (r : Report) (s : State) : (appendReport r s).inv = s.inv.map fun v => { v with reps := v.reps ++ [r] } := rfl
@[simp] theorem appendReport_pending (r : Report) (s : State) : (appendReport r s).pending = s.pending := rfl
@[simp] theorem appendReport_delivered (r : Report) (s : State) : (appendReport r s).delivered = s.delivered := rfl

@[simp] theorem closeInvocation_cfg (v : Invocation) (s : State) : (closeInvocation v s).cfg = s.cfg := rfl
@[simp] theorem closeInvocation_started (v : Invocation) (s : State) : (closeInvocation v s).started = s.started := rfl
@[simp] theorem closeInvocation_st (v : Invocation) (s : State) : (closeInvocation v s).st = s.st := rfl
@[simp] theorem closeInvocation_cur (v : Invocation) (s : State) : (closeInvocation v s).cur = s.cur - (v.window.length - min tailMax v.window.length) := rfl
@[simp] theorem closeInvocation_tail (v : Invocation) (s : State) : (closeInvocation v s).tail = lastN tailMax v.window := rfl
@[simp] theorem closeInvocation_fb (v : Invocation) (s : State) : (closeInvocation v s).fb = s.fb := rfl
@[simp] theorem closeInvocation_total (v : Invocation) (s : State) : (closeInvocation v s).total = s.total + v.chunk.length := rfl
@[simp] theorem closeInvocation_trace (v : Invocation) (s : State) : (closeInvocation v s).trace = s.trace := rfl
@[simp] theorem closeInvocation_inv (v : Invocation) (s : State) : (closeInvocation v s).inv = none := rfl
@[simp] theorem closeInvocation_pending (v : Invocation) (s : State) : (closeInvocation v s).pending = s.pending := rfl
@[simp] theorem closeInvocation_delivered (v : Invocation) (s : State) : (closeInvocation v s).delivered = s.delivered ++ [{ ann := v.ann, reps := v.reps }] := rfl

/-! ### Outcomes -/

@[simp] theorem bindNext_next (s : State) (f : State → Result) : bindNext (.next s) f = f s := rfl
@[simp] theorem bindNext_fault (r : Fault) (f : State → Result) : bindNext (.fault r) f = .fault r := rfl
@[simp] theorem bindNext_refused (r : Refusal) (f : State → Result) : bindNext (.refused r) f = .refused r := rfl
@[simp] theorem mapNext_next (f : State → State) (s : State) : mapNext f (.next s) = .next (f s) := rfl
@[simp] theorem mapNext_fault (f : State → State) (r : Fault) : mapNext f (.fault r) = .fault r := rfl
@[simp] theorem mapNext_refused (f : State → State) (r : Refusal) : mapNext f (.refused r) = .refused r := rfl

/-- A continued outcome is a next state only through a next state. -/
theorem bindNext_eq_next {o : Result} {f : State → Result} {t : State} :
    bindNext o f = .next t ↔ ∃ s, o = .next s ∧ f s = .next t := by
  cases o <;> simp

theorem mapNext_eq_next {o : Result} {f : State → State} {t : State} :
    mapNext f o = .next t ↔ ∃ s, o = .next s ∧ f s = t := by
  cases o <;> simp

/-! ### The computed elements -/

theorem base_eq (s : State) : s.base = s.total - s.tail.length := rfl

end Sys2Proof.Machine
end

