-- ==== Sys2Proof/Laws/Ops.lean ====
section
/-! SUPPORT. For each shared operation, once, everything it can do. -/

namespace Sys2Proof.Machine

/-! ### The marker primitive -/

/-- `emit` answers a next state exactly when the marker has its place; then the trace is extended and, outside the carry-over prefix,
one annotation entry written (R110). -/
theorem emit_eq_next {c : Nat} {k : Marker} {v : Invocation} {s t : State} :
    emit c k v s = .next t ↔
      (v.tailLen0 ≤ c → c - v.tailLen0 < v.ann.length) ∧
      t = { s with trace := traceAfter c k v s, inv := some { v with ann := annAfter c k v } } := by
  unfold emit traceAfter annAfter
  by_cases h : v.tailLen0 ≤ c
  · by_cases h2 : c - v.tailLen0 < v.ann.length
    · simp [h, h2, eq_comm]
    · simp [h, h2]
  · simp [h, eq_comm]

@[simp] theorem annAfter_length (c : Nat) (k : Marker) (v : Invocation) : (annAfter c k v).length = v.ann.length := by
  unfold annAfter; split <;> simp

/-- `emit` touches only the entry of its own position. -/
theorem annAfter_getElem?_ne (c : Nat) (k : Marker) (v : Invocation) (j : Nat) (h : j + v.tailLen0 ≠ c) :
    (annAfter c k v)[j]? = v.ann[j]? := by
  unfold annAfter
  split
  · rw [List.getElem?_set_ne]; omega
  · rfl

/-- `emit` outside the prefix writes its entry. -/
theorem annAfter_getElem?_self (c : Nat) (k : Marker) (v : Invocation) (h : v.tailLen0 ≤ c)
    (h2 : c - v.tailLen0 < v.ann.length) : (annAfter c k v)[c - v.tailLen0]? = some k := by
  simp [annAfter, h, h2]

/-! ### Guarded steps -/

/-- A guarded step that answers a next state had an invocation, eight samples and its Condition (R87). -/
theorem guarded_eq_next {cond : Invocation → Bool} {act : Invocation → Result} {s t : State} :
    guarded cond act s = .next t ↔
      ∃ v, s.inv = some v ∧ s.cur + 8 ≤ v.window.length ∧ cond v = true ∧ act v = .next t := by
  unfold guarded
  cases h : s.inv with
  | none => simp
  | some v =>
    by_cases h1 : s.cur + 8 ≤ v.window.length
    · by_cases h2 : cond v = true <;> simp [h1, h2]
    · simp [h1]

/-- A guarded step where one may be tried. -/
theorem guarded_canStep {cond : Invocation → Bool} {act : Invocation → Result} {s : State} {v : Invocation} (h : s.canStep v) :
    guarded cond act s = if cond v then act v else .refused .conditionNotMet := by
  simp [guarded, h.1, h.2]

/-! ### The parts of an invocation -/

/-- PROCESS is opened exactly between commands, after a RESET, on a chunk the host may send (R104, R111, R112, R136). -/
theorem openInvocation_eq_next {new : List Sample} {s t : State} :
    openInvocation new s = .next t ↔
      s.inv = none ∧ s.started = true ∧ new.length ≤ s.cfg.chunkMax ∧ samplesFit s.cfg new = true ∧
      t = { s with inv := some { chunk := new, tailLen0 := s.tail.length, window := s.tail ++ new,
                                 ann := List.replicate new.length .none, reps := [] } } := by
  unfold openInvocation
  cases hi : s.inv with
  | some v => simp
  | none =>
    by_cases h1 : s.started = false
    · simp [h1]
    · by_cases h2 : s.cfg.chunkMax < new.length
      · simp [h1, h2]
      · by_cases h3 : samplesFit s.cfg new = false
        · simp [h1, h2, h3]
        · simp only [Bool.not_eq_false] at h1 h3
          simp [h1, h2, h3, Nat.le_of_not_lt h2, eq_comm]

@[simp] theorem lastN_length (k : Nat) (xs : List Sample) : (lastN k xs).length = min k xs.length := by
  simp [lastN]; omega

/-- The tail save of a stitched window forgets nothing that a longer stitch would have kept. -/
theorem lastN_append_lastN (k : Nat) (xs ys : List Sample) : lastN k (lastN k xs ++ ys) = lastN k (xs ++ ys) := by
  unfold lastN
  simp only [List.length_append, List.length_drop, List.drop_append, List.drop_drop]
  congr 1 <;> congr 1 <;> omega

end Sys2Proof.Machine
end

