-- ==== Sys2Proof/Laws/Exec.lean ====
section
/-! SUPPORT. What each instruction can do, said once: an inversion lemma for the nine decoder steps together, one for each host
command, and the two ways of running a decoder step. -/

namespace Sys2Proof.Machine

@[simp] theorem dataMarker_zero : dataMarker 0#2 = .data00 := rfl
@[simp] theorem dataMarker_one : dataMarker 1#2 = .data01 := rfl
@[simp] theorem dataMarker_two : dataMarker 2#2 = .data10 := rfl
@[simp] theorem dataMarker_three : dataMarker 3#2 = .data11 := rfl

/-- The Condition line of each decoder step's rule (R89 to R98). -/
def stepCondition (i : Instr) (s : State) (v : Invocation) : Prop :=
  match i with
  | .preamble => s.st = .seekingPreamble ∧ matchAt v.window s.cur s.cfg.catalog.pre = true
  | .skip => s.st = .seekingPreamble ∧ matchAt v.window s.cur s.cfg.catalog.pre = false
  | .eof => s.st = .receivingData ∧ matchAt v.window s.cur s.cfg.catalog.eof = true
  | .data00 => s.st = .receivingData ∧ matchAt v.window s.cur s.cfg.catalog.eof = false ∧
      classify s.cfg v.window s.cur = some 0#2 ∧ s.fb.length < s.cfg.frameCap
  | .data01 => s.st = .receivingData ∧ matchAt v.window s.cur s.cfg.catalog.eof = false ∧
      classify s.cfg v.window s.cur = some 1#2 ∧ s.fb.length < s.cfg.frameCap
  | .data10 => s.st = .receivingData ∧ matchAt v.window s.cur s.cfg.catalog.eof = false ∧
      classify s.cfg v.window s.cur = some 2#2 ∧ s.fb.length < s.cfg.frameCap
  | .data11 => s.st = .receivingData ∧ matchAt v.window s.cur s.cfg.catalog.eof = false ∧
      classify s.cfg v.window s.cur = some 3#2 ∧ s.fb.length < s.cfg.frameCap
  | .corruptOvf => s.st = .receivingData ∧ matchAt v.window s.cur s.cfg.catalog.eof = false ∧
      (∃ k, classify s.cfg v.window s.cur = some k) ∧ ¬ s.fb.length < s.cfg.frameCap
  | .corrupt => s.st = .receivingData ∧ matchAt v.window s.cur s.cfg.catalog.eof = false ∧
      classify s.cfg v.window s.cur = none
  | .reset => False
  | .process _ => False

/-- The state after a decoder step, from its row of R53 and its rule. -/
def afterStep (i : Instr) (v : Invocation) (s : State) : State :=
  { s with
    cur := s.cur + stepAdvance i
    st := stepNextState i
    fb := stepBuffer i s.fb
    trace := s.trace ++ ((stepMarker i).map fun m => (s.total - v.tailLen0 + s.cur, m)).toList
    inv := some { v with
      ann := match stepMarker i with
        | none => v.ann
        | some m => annAfter s.cur m v
      reps := if i = .eof then v.reps ++ [finalize s.fb] else v.reps } }

/-- Membership in the nine steps, for case analysis. -/
theorem mem_decoderSteps {i : Instr} : i ∈ decoderSteps ↔
    i = .preamble ∨ i = .skip ∨ i = .eof ∨ i = .data00 ∨ i = .data01 ∨ i = .data10 ∨ i = .data11 ∨ i = .corruptOvf ∨
      i = .corrupt := by
  simp [decoderSteps]

/-- What the marker of a step needs: a place (R40). SKIP has no marker. -/
def stepFits (i : Instr) (s : State) (v : Invocation) : Prop := stepMarker i ≠ none → markerFits s v

/-- A decoder step answers a next state exactly when it may be tried, its Condition holds and its marker has a place; the next state
is the one of its rule. -/
theorem exec_decoderStep {i : Instr} (hi : i ∈ decoderSteps) {s t : State} :
    exec i s = .next t ↔
      ∃ v, s.canStep v ∧ stepCondition i s v ∧ stepFits i s v ∧ t = afterStep i v s := by
  rw [mem_decoderSteps] at hi
  rcases hi with rfl | rfl | rfl | rfl | rfl | rfl | rfl | rfl | rfl
  · -- PREAMBLE
    simp only [exec, execPreamble, guarded_eq_next, mapNext_eq_next, emit_eq_next, Bool.and_eq_true, beq_iff_eq]
    constructor
    · rintro ⟨v, h1, h2, ⟨h3, h4⟩, u, ⟨h5, rfl⟩, rfl⟩
      exact ⟨v, ⟨h1, h2⟩, ⟨h3, h4⟩, fun _ => h5, rfl⟩
    · rintro ⟨v, ⟨h1, h2⟩, ⟨h3, h4⟩, h5, rfl⟩
      exact ⟨v, h1, h2, ⟨h3, h4⟩, _, ⟨h5 (by simp [stepMarker]), rfl⟩, rfl⟩
  · -- SKIP
    simp only [exec, execSkip, guarded_eq_next, Bool.and_eq_true, beq_iff_eq, Bool.not_eq_true', Host.Outcome.next.injEq]
    constructor
    · rintro ⟨v, h1, h2, ⟨h3, h4⟩, rfl⟩
      refine ⟨v, ⟨h1, h2⟩, ⟨h3, h4⟩, fun h => absurd rfl h, ?_⟩
      simp [afterStep, advance, stepAdvance, stepNextState, stepBuffer, stepMarker, h1, h3]
    · rintro ⟨v, ⟨h1, h2⟩, ⟨h3, h4⟩, -, rfl⟩
      refine ⟨v, h1, h2, ⟨h3, h4⟩, ?_⟩
      simp [afterStep, advance, stepAdvance, stepNextState, stepBuffer, stepMarker, h1, h3]
  · -- EOF
    simp only [exec, execEof, guarded_eq_next, mapNext_eq_next, emit_eq_next, Bool.and_eq_true, beq_iff_eq]
    constructor
    · rintro ⟨v, h1, h2, ⟨h3, h4⟩, u, ⟨h5, rfl⟩, rfl⟩
      exact ⟨v, ⟨h1, h2⟩, ⟨h3, h4⟩, fun _ => h5, rfl⟩
    · rintro ⟨v, ⟨h1, h2⟩, ⟨h3, h4⟩, h5, rfl⟩
      exact ⟨v, h1, h2, ⟨h3, h4⟩, _, ⟨h5 (by simp [stepMarker]), rfl⟩, rfl⟩
  iterate 4 -- DATA00, DATA01, DATA10, DATA11
    · simp only [exec, execData00, execData01, execData10, execData11, takeData, dataCondition, guarded_eq_next,
        mapNext_eq_next, emit_eq_next, Bool.and_eq_true, beq_iff_eq, Bool.not_eq_true', decide_eq_true_eq, State.fcnt]
      constructor
      · rintro ⟨v, h1, h2, ⟨⟨⟨h3, h4⟩, h6⟩, h7⟩, u, ⟨h5, rfl⟩, rfl⟩
        refine ⟨v, ⟨h1, h2⟩, ⟨h3, h4, h6, h7⟩, fun _ => h5, ?_⟩
        simp [afterStep, advance, push, stepAdvance, stepNextState, stepBuffer, stepMarker, traceAfter, h3]
      · rintro ⟨v, ⟨h1, h2⟩, ⟨h3, h4, h6, h7⟩, h5, rfl⟩
        refine ⟨v, h1, h2, ⟨⟨⟨h3, h4⟩, h6⟩, h7⟩, _, ⟨h5 (by simp [stepMarker]), rfl⟩, ?_⟩
        simp [afterStep, advance, push, stepAdvance, stepNextState, stepBuffer, stepMarker, traceAfter, h3]
  · -- CORRUPT.OVF
    simp only [exec, execCorruptOvf, takeCorrupted, guarded_eq_next, mapNext_eq_next, emit_eq_next, Bool.and_eq_true,
      beq_iff_eq, Bool.not_eq_true', decide_eq_false_iff_not, Option.isSome_iff_exists, State.fcnt]
    constructor
    · rintro ⟨v, h1, h2, ⟨⟨⟨h3, h4⟩, h6⟩, h7⟩, u, ⟨h5, rfl⟩, rfl⟩
      exact ⟨v, ⟨h1, h2⟩, ⟨h3, h4, h6, h7⟩, fun _ => h5, rfl⟩
    · rintro ⟨v, ⟨h1, h2⟩, ⟨h3, h4, h6, h7⟩, h5, rfl⟩
      exact ⟨v, h1, h2, ⟨⟨⟨h3, h4⟩, h6⟩, h7⟩, _, ⟨h5 (by simp [stepMarker]), rfl⟩, rfl⟩
  · -- CORRUPT
    simp only [exec, execCorrupt, takeCorrupted, guarded_eq_next, mapNext_eq_next, emit_eq_next, Bool.and_eq_true,
      beq_iff_eq, Bool.not_eq_true']
    constructor
    · rintro ⟨v, h1, h2, ⟨⟨h3, h4⟩, h6⟩, u, ⟨h5, rfl⟩, rfl⟩
      exact ⟨v, ⟨h1, h2⟩, ⟨h3, h4, h6⟩, fun _ => h5, rfl⟩
    · rintro ⟨v, ⟨h1, h2⟩, ⟨h3, h4, h6⟩, h5, rfl⟩
      exact ⟨v, h1, h2, ⟨⟨h3, h4⟩, h6⟩, _, ⟨h5 (by simp [stepMarker]), rfl⟩, rfl⟩

/-- What the decoder selects satisfies its Condition (R88). -/
theorem stepCondition_of_decodeAt {v : Invocation} {s : State} {i : Instr} (h : decodeAt v s = .ok i) :
    i ∈ decoderSteps ∧ s.cur + 8 ≤ v.window.length ∧ stepCondition i s v := by
  obtain ⟨hl, h⟩ := decode_eq_ok h
  rcases h with ⟨h1, h2, rfl⟩ | ⟨h1, h2, rfl⟩ | ⟨h1, h2, rfl⟩ | ⟨h1, h2, k, h3, h4, rfl⟩ | ⟨h1, h2, h3, h4, rfl⟩ |
    ⟨h1, h2, h3, rfl⟩
  · exact ⟨by simp [decoderSteps], hl, h1, h2⟩
  · exact ⟨by simp [decoderSteps], hl, h1, h2⟩
  · exact ⟨by simp [decoderSteps], hl, h1, h2⟩
  · refine ⟨?_, hl, ?_⟩
    · rcases code_cases k with rfl | rfl | rfl | rfl <;> simp [decoderSteps]
    · rcases code_cases k with rfl | rfl | rfl | rfl <;> exact ⟨h1, h2, h3, h4⟩
  · exact ⟨by simp [decoderSteps], hl, h1, h2, h3, h4⟩
  · exact ⟨by simp [decoderSteps], hl, h1, h2, h3⟩

/-- The decoder step inside PROCESS is the instruction `exec` gives it. -/
theorem runDecoderStep_eq_exec {i : Instr} (hi : i ∈ decoderSteps) (s : State) : runDecoderStep i s = exec i s := by
  rw [mem_decoderSteps] at hi
  rcases hi with rfl | rfl | rfl | rfl | rfl | rfl | rfl | rfl | rfl <;> rfl

theorem decoderStep_eq_exec {v : Invocation} {s : State} {i : Instr} (h : decodeAt v s = .ok i) :
    decoderStep v s = exec i s := by
  simp only [decoderStep, h]
  exact runDecoderStep_eq_exec (stepCondition_of_decodeAt h).1 s

/-- One pass of the loop of PROCESS, in an invocation: a next state is the selected step's next state. -/
theorem decoderStep_eq_next {v : Invocation} {s t : State} (hv : s.inv = some v) :
    decoderStep v s = .next t ↔
      ∃ i, decodeAt v s = .ok i ∧ stepFits i s v ∧ t = afterStep i v s := by
  constructor
  · intro h
    cases hd : decodeAt v s with
    | error e => simp [decoderStep, hd] at h
    | ok i =>
      rw [decoderStep_eq_exec hd, exec_decoderStep (stepCondition_of_decodeAt hd).1] at h
      obtain ⟨w, hw, -, h3, h4⟩ := h
      obtain rfl : v = w := by have := hw.1; rw [hv] at this; exact Option.some.inj this
      exact ⟨i, rfl, h3, h4⟩
  · rintro ⟨i, hd, h3, rfl⟩
    obtain ⟨h1, h2, hc⟩ := stepCondition_of_decodeAt hd
    rw [decoderStep_eq_exec hd, exec_decoderStep h1]
    exact ⟨v, ⟨hv, h2⟩, hc, h3, rfl⟩

/-! ### The host commands -/

theorem execReset_eq_next {s t : State} : exec .reset s = .next t ↔
    s.inv = none ∧
      t = { s with started := true, st := .seekingPreamble, cur := 0, tail := [], fb := [], total := 0, trace := [] } := by
  simp only [exec, execReset]
  cases s.inv <;> simp [eq_comm]

/-- PROCESS answers a next state exactly through its three parts (R103). -/
theorem execProcess_eq_next {new : List Sample} {s t : State} : exec (.process new) s = .next t ↔
    ∃ a b, openInvocation new s = .next a ∧ processLoop (s.tail.length + new.length) a = .next b ∧
      finishInvocation b = .next t := by
  simp only [exec, execProcess, bindNext_eq_next]
  constructor
  · rintro ⟨a, h1, b, h2, h3⟩; exact ⟨a, b, h1, h2, h3⟩
  · rintro ⟨a, b, h1, h2, h3⟩; exact ⟨a, h1, b, h2, h3⟩

/-! ### One step of the machine -/

/-- Every way a step answers a next state: a decoder step, the end of an invocation, idling, RESET, or the opening of PROCESS. -/
theorem step_eq_next {s t : State} (h : step s = .next t) :
    (∃ v i, s.inv = some v ∧ decodeAt v s = .ok i ∧ stepFits i s v ∧ t = afterStep i v s) ∨
    (∃ v, s.inv = some v ∧ v.window.length < s.cur + 8 ∧ t = closeInvocation v s) ∨
    (s.inv = none ∧ s.pending = [] ∧ t = s) ∨
    (∃ rest, s.inv = none ∧ s.pending = .reset :: rest ∧ exec .reset { s with pending := rest } = .next t) ∨
    (∃ new rest, s.inv = none ∧ s.pending = .process new :: rest ∧
      openInvocation new { s with pending := rest } = .next t) := by
  unfold step at h
  cases hi : s.inv with
  | some v =>
    rw [hi] at h
    by_cases hl : s.cur + 8 ≤ v.window.length
    · simp only [frameLen, hl, if_true] at h
      cases hd : decodeAt v s with
      | error e => simp [hd] at h
      | ok i =>
        rw [hd] at h
        rw [exec_decoderStep (stepCondition_of_decodeAt hd).1] at h
        obtain ⟨w, hw, -, h3, h4⟩ := h
        obtain rfl : v = w := by have := hw.1; rw [hi] at this; exact Option.some.inj this
        exact .inl ⟨v, i, rfl, hd, h3, h4⟩
    · simp only [frameLen, hl, if_false, Host.Outcome.next.injEq] at h
      exact .inr (.inl ⟨v, rfl, by omega, h.symm⟩)
  | none =>
    rw [hi] at h
    cases hp : s.pending with
    | nil => rw [hp] at h; cases h; exact .inr (.inr (.inl ⟨rfl, hp ▸ rfl, rfl⟩))
    | cons c rest =>
      rw [hp] at h
      cases c with
      | reset => exact .inr (.inr (.inr (.inl ⟨rest, rfl, rfl, h⟩)))
      | process new => exact .inr (.inr (.inr (.inr ⟨new, rest, rfl, rfl, h⟩)))

end Sys2Proof.Machine
end

