-- ==== Sys2Proof/Laws/Frame.lean ====
section
/-! SUPPORT. Packing symbols into integers, and the report, as arithmetic. -/

namespace Sys2Proof.Machine

@[simp] theorem pack_nil : pack [] = 0 := rfl

/-- Packing as arithmetic: the shifted rest and the low two bits do not overlap (R35). -/
theorem pack_cons (c : Code) (cs : List Code) : pack (c :: cs) = c.toNat + 4 * pack cs := by
  have h : c.toNat < 2 ^ 2 := c.isLt
  have := Nat.shiftLeft_add_eq_or_of_lt h (pack cs)
  rw [pack, Nat.or_comm, ← this, Nat.shiftLeft_eq]
  omega

theorem pack_lt (cs : List Code) : pack cs < 4 ^ cs.length := by
  induction cs with
  | nil => simp
  | cons c cs ih =>
    have := c.isLt
    rw [pack_cons, List.length_cons, Nat.pow_succ]
    omega

theorem pack_append (xs ys : List Code) : pack (xs ++ ys) = pack xs + 4 ^ xs.length * pack ys := by
  induction xs with
  | nil => simp
  | cons c cs ih =>
    rw [List.cons_append, pack_cons, ih, pack_cons, List.length_cons, Nat.pow_succ, Nat.mul_add]
    ring

/-- Dropping symbols from the front is division (R35). -/
theorem pack_drop (xs : List Code) (n : Nat) : pack (xs.drop n) = pack xs / 4 ^ n := by
  induction n generalizing xs with
  | zero => simp
  | succ n ih =>
    cases xs with
    | nil => simp
    | cons c cs =>
      have := c.isLt
      rw [List.drop_succ_cons, ih, pack_cons, Nat.pow_succ', ← Nat.div_div_eq_div_mul]
      congr 1
      omega

/-- Taking symbols from the front is the remainder (R35). -/
theorem pack_take (xs : List Code) (n : Nat) : pack (xs.take n) = pack xs % 4 ^ n := by
  by_cases h : n ≤ xs.length
  · conv_rhs => rw [← List.take_append_drop n xs, pack_append, List.length_take, Nat.min_eq_left h, Nat.add_mul_mod_self_left]
    rw [Nat.mod_eq_of_lt]
    have := pack_lt (xs.take n)
    rwa [List.length_take, Nat.min_eq_left h] at this
  · rw [List.take_of_length_le (by omega), Nat.mod_eq_of_lt]
    exact (pack_lt xs).trans_le (Nat.pow_le_pow_right (by omega) (by omega))

/-- `to_value` on natural bounds (R78). -/
theorem toValue_nat (fb : List Code) (a b : Nat) : toValue fb a b = pack ((fb.take b).drop a) := by
  unfold toValue
  have h1 : (max (a : Int) 0).toNat = a := by omega
  have h2 : (min (b : Int) fb.length).toNat = min b fb.length := by omega
  simp only [h1, h2]
  congr 2
  rcases Nat.le_total b fb.length with h | h
  · rw [Nat.min_eq_left h]
  · rw [Nat.min_eq_right h, List.take_of_length_le (le_refl _), List.take_of_length_le h]

/-- The whole frame's value (R83). -/
theorem toValue_all (fb : List Code) : toValue fb 0 fb.length = pack fb := by
  have := toValue_nat fb 0 fb.length
  simpa using this

end Sys2Proof.Machine
end

