-- ==== Sys2Proof/Laws/Memory.lean ====
section
/-! SUPPORT. Every operation keeps the index spaces in canonical form, and the state after RESET has it. -/

namespace Sys2Proof.Machine

/-- `Memory.wf` as propositions, between commands. -/
theorem memory_wf_idle {s : State} (h : s.inv = none) : Memory.wf s = true ↔
    s.tail.length ≤ 7 ∧ samplesFit s.cfg s.tail = true ∧ s.fb.length ≤ s.cfg.frameCap := by
  simp [Memory.wf, h, and_assoc]

/-- `Memory.wf` as propositions, during an invocation. -/
theorem memory_wf_busy {s : State} {v : Invocation} (h : s.inv = some v) : Memory.wf s = true ↔
    s.tail.length ≤ 7 ∧ samplesFit s.cfg s.tail = true ∧ s.fb.length ≤ s.cfg.frameCap ∧
    v.window = s.tail ++ v.chunk ∧ v.tailLen0 = s.tail.length ∧ v.ann.length = v.chunk.length ∧
    v.chunk.length ≤ s.cfg.chunkMax ∧ samplesFit s.cfg v.chunk = true := by
  simp [Memory.wf, h, and_assoc]

theorem memory_wf_ofConfig (g : Config) : Memory.wf (State.ofConfig g) = true := by
  rw [memory_wf_idle rfl]; simp [State.ofConfig, samplesFit]

/-- The buffer of a step stays within the capacity (R24 (c), R98). -/
theorem stepBuffer_length_le {i : Instr} {s : State} {v : Invocation} (hc : stepCondition i s v)
    (h : s.fb.length ≤ s.cfg.frameCap) : (stepBuffer i s.fb).length ≤ s.cfg.frameCap := by
  cases i <;> simp_all [stepBuffer, stepCondition]

/-- The annotation buffer keeps its length in a step. -/
theorem afterStep_ann_length (i : Instr) (v : Invocation) (s : State) :
    (match stepMarker i with | none => v.ann | some m => annAfter s.cur m v).length = v.ann.length := by
  cases stepMarker i <;> simp

theorem memory_wf_afterStep {i : Instr} {s : State} {v : Invocation} (hv : s.inv = some v) (hc : stepCondition i s v)
    (h : Memory.wf s = true) : Memory.wf (afterStep i v s) = true := by
  rw [memory_wf_busy hv] at h
  rw [memory_wf_busy (v := { v with
      ann := match stepMarker i with
        | none => v.ann
        | some m => annAfter s.cur m v
      reps := if i = .eof then v.reps ++ [finalize s.fb] else v.reps }) rfl]
  obtain ⟨h1, h2, h3, h4, h5, h6, h7, h8⟩ := h
  exact ⟨h1, h2, stepBuffer_length_le hc h3, h4, h5, (afterStep_ann_length i v s).trans h6, h7, h8⟩

theorem memory_wf_openInvocation {new : List Sample} {s t : State} (ho : openInvocation new s = .next t)
    (h : Memory.wf s = true) : Memory.wf t = true := by
  obtain ⟨hi, -, h1, h2, rfl⟩ := openInvocation_eq_next.1 ho
  rw [memory_wf_idle hi] at h
  rw [memory_wf_busy rfl]
  exact ⟨h.1, h.2.1, h.2.2, rfl, rfl, by simp, h1, h2⟩

theorem samplesFit_append {g : Config} {xs ys : List Sample} :
    samplesFit g (xs ++ ys) = true ↔ samplesFit g xs = true ∧ samplesFit g ys = true := by
  simp [samplesFit]

theorem samplesFit_drop {g : Config} {xs : List Sample} (n : Nat) (h : samplesFit g xs = true) :
    samplesFit g (xs.drop n) = true := by
  simp only [samplesFit, List.all_eq_true] at h ⊢
  exact fun x hx => h x (List.mem_of_mem_drop hx)

theorem memory_wf_closeInvocation {v : Invocation} {s : State} (hv : s.inv = some v) (h : Memory.wf s = true) :
    Memory.wf (closeInvocation v s) = true := by
  rw [memory_wf_busy hv] at h
  rw [memory_wf_idle rfl]
  obtain ⟨-, h2, h3, h4, -, -, -, h8⟩ := h
  refine ⟨by simp, ?_, h3⟩
  rw [closeInvocation_tail, h4]
  exact samplesFit_drop _ (samplesFit_append.2 ⟨h2, h8⟩)

end Sys2Proof.Machine
end

