-- ==== Sys2Proof/Laws/PerInstr.lean ====
section
/-! SUPPORT. Statements per instruction. -/

namespace Sys2Proof.Laws.EncodedLength

/-- The number of samples in the format of an instruction's row (R47, R53): EOF is E4, the other steps P8; a host command has no
encoding (R62). -/
def formatSamples : Instr → Option Nat
  | .preamble => some 8
  | .skip => some 8
  | .eof => some 4
  | .data00 => some 8
  | .data01 => some 8
  | .data10 => some 8
  | .data11 => some 8
  | .corruptOvf => some 8
  | .corrupt => some 8
  | .reset => none
  | .process _ => none

/-- Under every well-formed instance the encoder gives exactly the samples of the instruction's format, each a code of the instance. -/
def Statement (i : Instr) : Prop :=
  ∀ g : Config, g.wf = true →
    (encode g i).map List.length = formatSamples i ∧ ∀ w, encode g i = some w → samplesFit g w = true

/-- Samples that are `S_HI` or `S_LO` are codes of the instance. -/
theorem samplesFit_of_mem {g : Config} (hg : g.wf = true) {w : List Sample} (h : ∀ x ∈ w, x = g.sHi ∨ x = g.sLo) :
    samplesFit g w = true := by
  have p := g.wf_parts hg
  simp only [samplesFit, List.all_eq_true, decide_eq_true_eq]
  intro x hx
  rcases h x hx with rfl | rfl
  exacts [p.hi_lt, p.lo_lt]

/-- An encoding that is one pattern of the catalog. -/
theorem statement_of_pattern {i : Instr} {n : Nat} (pat : Config → List Sample) (he : ∀ g, encode g i = some (pat g))
    (hf : formatSamples i = some n)
    (h : ∀ g : Config, g.wf = true → (pat g).length = n ∧ ∀ x ∈ pat g, x = g.sHi ∨ x = g.sLo) : Statement i := by
  intro g hg
  obtain ⟨h1, h2⟩ := h g hg
  rw [he g, hf]
  refine ⟨by simp [h1], ?_⟩
  intro w hw
  cases hw
  exact samplesFit_of_mem hg h2

theorem preamble : Statement .preamble :=
  statement_of_pattern (fun g => g.catalog.pre) (fun _ => rfl) rfl fun g hg => ⟨(g.wf_parts hg).pre_length, (g.wf_parts hg).pre_mem⟩

theorem skip : Statement .skip :=
  statement_of_pattern skipWindow (fun _ => rfl) rfl fun g _ => by
    unfold skipWindow; split <;> simp

theorem eof : Statement .eof :=
  statement_of_pattern (fun g => g.catalog.eof) (fun _ => rfl) rfl fun g hg => ⟨(g.wf_parts hg).eof_length, (g.wf_parts hg).eof_mem⟩

theorem data00 : Statement .data00 :=
  statement_of_pattern (fun g => g.catalog.data 0#2) (fun _ => rfl) rfl fun g hg =>
    ⟨(g.wf_parts hg).data_length _, (g.wf_parts hg).data_mem _⟩

theorem data01 : Statement .data01 :=
  statement_of_pattern (fun g => g.catalog.data 1#2) (fun _ => rfl) rfl fun g hg =>
    ⟨(g.wf_parts hg).data_length _, (g.wf_parts hg).data_mem _⟩

theorem data10 : Statement .data10 :=
  statement_of_pattern (fun g => g.catalog.data 2#2) (fun _ => rfl) rfl fun g hg =>
    ⟨(g.wf_parts hg).data_length _, (g.wf_parts hg).data_mem _⟩

theorem data11 : Statement .data11 :=
  statement_of_pattern (fun g => g.catalog.data 3#2) (fun _ => rfl) rfl fun g hg =>
    ⟨(g.wf_parts hg).data_length _, (g.wf_parts hg).data_mem _⟩

theorem corruptOvf : Statement .corruptOvf :=
  statement_of_pattern (fun g => g.catalog.data 0#2) (fun _ => rfl) rfl fun g hg =>
    ⟨(g.wf_parts hg).data_length _, (g.wf_parts hg).data_mem _⟩

theorem corrupt : Statement .corrupt :=
  statement_of_pattern corruptWindow (fun _ => rfl) rfl fun g _ => by
    unfold corruptWindow; split <;> simp

theorem reset : Statement .reset := fun _ _ => ⟨rfl, fun _ h => nomatch h⟩

theorem process (new : List Sample) : Statement (.process new) := fun _ _ => ⟨rfl, fun _ h => nomatch h⟩

end Sys2Proof.Laws.EncodedLength
end

