-- ==== Sys2Proof/Laws/Process.lean ====
section
/-! SUPPORT. The loop of PROCESS, said once: what a run of decoder steps does, that the loop is such a run to the place where no step is
enabled, and the same run seen on absolute positions of the stream (the reason R114 gives). -/

namespace Sys2Proof.Machine

/-! ### Runs of decoder steps -/

/-- `n` decoder steps, one after another, lead from `s` to `t` (R87, R107). -/
inductive Decodes : Nat → State → State → Prop where
  | refl (s : State) : Decodes 0 s s
  | step {n : Nat} {s t : State} {v : Invocation} {i : Instr} (hv : s.inv = some v) (hd : decodeAt v s = .ok i)
      (hf : stepFits i s v) (h : Decodes n (afterStep i v s) t) : Decodes (n + 1) s t

/-- Every decoder step moves the cursor on (R99). -/
theorem stepAdvance_pos {i : Instr} (hi : i ∈ decoderSteps) : 1 ≤ stepAdvance i := by
  rw [mem_decoderSteps] at hi
  rcases hi with rfl | rfl | rfl | rfl | rfl | rfl | rfl | rfl | rfl <;> simp [stepAdvance]

theorem stepAdvance_le (i : Instr) : stepAdvance i ≤ 8 := by
  cases i <;> simp [stepAdvance]

/-- What a run of decoder steps leaves alone, and how far the cursor has moved at least. -/
theorem Decodes.frame {n : Nat} {s t : State} (h : Decodes n s t) {v : Invocation} (hv : s.inv = some v) :
    t.cfg = s.cfg ∧ t.started = s.started ∧ t.tail = s.tail ∧ t.total = s.total ∧ t.pending = s.pending ∧
    t.delivered = s.delivered ∧ s.cur + n ≤ t.cur ∧ (s.cur ≤ v.window.length → t.cur ≤ v.window.length) ∧
    ∃ w, t.inv = some w ∧ w.chunk = v.chunk ∧ w.tailLen0 = v.tailLen0 ∧ w.window = v.window ∧
      w.ann.length = v.ann.length := by
  induction h generalizing v with
  | refl s => exact ⟨rfl, rfl, rfl, rfl, rfl, rfl, le_rfl, id, v, hv, rfl, rfl, rfl, rfl⟩
  | @step n s t v' i hv' hd hf h ih =>
    obtain rfl : v' = v := by rw [hv'] at hv; exact Option.some.inj hv
    obtain ⟨hi, hl, -⟩ := stepCondition_of_decodeAt hd
    obtain ⟨h1, h2, h3, h4, h5, h6, h7, h8, w, hw, w1, w2, w3, w4⟩ := ih (v := _) rfl
    have hc : (afterStep i v' s).cur = s.cur + stepAdvance i := rfl
    rw [hc] at h7 h8
    have ha := stepAdvance_pos hi
    have hb := stepAdvance_le i
    exact ⟨h1, h2, h3, h4, h5, h6, by omega, fun _ => h8 (by simp only; omega), w, hw, w1, w2, w3,
      w4.trans (afterStep_ann_length i v' s)⟩

/-- A run of decoder steps keeps the index spaces in canonical form. -/
theorem Decodes.memory_wf {n : Nat} {s t : State} (h : Decodes n s t) (hm : Memory.wf s = true) : Memory.wf t = true := by
  induction h with
  | refl s => exact hm
  | step hv hd hf h ih => exact ih (memory_wf_afterStep hv (stepCondition_of_decodeAt hd).2.2 hm)

/-- A run of decoder steps keeps the buffer empty while seeking (R24 (d)). -/
theorem Decodes.seeking_empty {n : Nat} {s t : State} (h : Decodes n s t) (hs : s.st = .seekingPreamble → s.fb = []) :
    t.st = .seekingPreamble → t.fb = [] := by
  induction h with
  | refl s => exact hs
  | @step n s t v i hv hd hf h ih =>
    apply ih
    intro h1
    have hc := (stepCondition_of_decodeAt hd).2.2
    have h1' : stepNextState i = .seekingPreamble := h1
    cases i <;> simp_all [stepNextState, afterStep, stepBuffer, stepCondition]

/-- The loop is a run of decoder steps that ends where the fuel is used up or fewer than eight samples are left (R106). -/
theorem processLoop_eq_next {fuel : Nat} {s t : State} {v : Invocation} (hv : s.inv = some v)
    (h : processLoop fuel s = .next t) :
    ∃ n, n ≤ fuel ∧ Decodes n s t ∧ (n = fuel ∨ v.window.length < t.cur + 8) := by
  induction fuel generalizing s v with
  | zero => cases h; exact ⟨0, le_rfl, .refl _, .inl rfl⟩
  | succ fuel ih =>
    rw [processLoop, hv] at h
    by_cases hl : s.cur + 8 ≤ v.window.length
    · simp only [frameLen, hl, if_true, bindNext_eq_next] at h
      obtain ⟨u, h1, h2⟩ := h
      obtain ⟨i, hd, hf, rfl⟩ := (decoderStep_eq_next hv).1 h1
      obtain ⟨n, hn, h3, h4⟩ := ih (v := _) rfl h2
      exact ⟨n + 1, by omega, .step hv hd hf h3, by rcases h4 with h4 | h4 <;> simp_all⟩
    · simp only [frameLen, hl, if_false, Host.Outcome.next.injEq] at h
      subst h
      exact ⟨0, by omega, .refl s, .inr (by omega)⟩

/-- In canonical form a marker always has its place (R40). -/
theorem markerFits_of_wf {s : State} {v : Invocation} (h : s.canStep v) (hm : Memory.wf s = true) : markerFits s v := by
  rw [memory_wf_busy h.1] at hm
  obtain ⟨-, -, -, h4, h5, h6, -⟩ := hm
  have := h.2
  rw [h4, List.length_append] at this
  intro _
  omega

/-- In canonical form the loop always answers (R101). -/
theorem processLoop_total {fuel : Nat} {s : State} {v : Invocation} (hv : s.inv = some v) (hm : Memory.wf s = true) :
    ∃ t, processLoop fuel s = .next t := by
  induction fuel generalizing s v with
  | zero => exact ⟨s, rfl⟩
  | succ fuel ih =>
    rw [processLoop, hv]
    by_cases hl : s.cur + 8 ≤ v.window.length
    · obtain ⟨i, hd⟩ := decode_total (g := s.cfg) (st := s.st) (n := s.fcnt) hl
      have hstep : decoderStep v s = .next (afterStep i v s) :=
        (decoderStep_eq_next hv).2 ⟨i, hd, fun _ => markerFits_of_wf ⟨hv, hl⟩ hm, rfl⟩
      simp only [frameLen, hl, if_true, hstep, bindNext_next]
      exact ih rfl (memory_wf_afterStep hv (stepCondition_of_decodeAt hd).2.2 hm)
    · exact ⟨s, by simp [hl]⟩

/-- PROCESS, whole (R103): opened, run to the place where no step is enabled, closed. -/
theorem execProcess_run {new : List Sample} {s t : State} (h : exec (.process new) s = .next t) :
    ∃ a b v w n, openInvocation new s = .next a ∧ a.inv = some v ∧ v.window = s.tail ++ new ∧ v.chunk = new ∧
      v.tailLen0 = s.tail.length ∧ v.ann = List.replicate new.length .none ∧ v.reps = [] ∧ Decodes n a b ∧
      b.inv = some w ∧ v.window.length < b.cur + 8 ∧ t = closeInvocation w b := by
  obtain ⟨a, b, h1, h2, h3⟩ := execProcess_eq_next.1 h
  obtain ⟨hi, hs, hl, hf, rfl⟩ := openInvocation_eq_next.1 h1
  obtain ⟨n, hn, hd, he⟩ := processLoop_eq_next rfl h2
  obtain ⟨-, -, -, -, -, -, f7, -, w, hw, -⟩ := hd.frame rfl
  refine ⟨_, b, _, w, n, h1, rfl, rfl, rfl, rfl, rfl, rfl, hd, hw, ?_, ?_⟩
  · simp only [List.length_append] at he f7 ⊢
    rcases he with he | he <;> omega
  · simp only [finishInvocation, hw, Host.Outcome.next.injEq] at h3
    exact h3.symm

/-! ### The run on absolute positions -/

/-- The core seen without its buffers: decoder state, frame buffer, absolute cursor, trace and reports (R114). -/
structure Abs where
  st : DecoderState
  fb : List Code
  pos : Nat
  trace : List (Nat × Marker)
  reps : List Report

/-- A decoder step seen so. -/
def Abs.after (x : Abs) (i : Instr) : Abs where
  st := stepNextState i
  fb := stepBuffer i x.fb
  pos := x.pos + stepAdvance i
  trace := x.trace ++ ((stepMarker i).map fun m => (x.pos, m)).toList
  reps := if i = .eof then x.reps ++ [finalize x.fb] else x.reps

/-- The run over the samples from the cursor on, to the place where fewer than eight are left. -/
inductive AbsRun (g : Config) : List Sample → Abs → List Sample → Abs → Prop where
  | stop {r : List Sample} {x : Abs} (h : r.length < 8) : AbsRun g r x r x
  | step {r r' : List Sample} {x x' : Abs} {i : Instr} (h : 8 ≤ r.length)
      (hd : decode g x.st x.fb.length r 0 = .ok i) (hr : AbsRun g (r.drop (stepAdvance i)) (x.after i) r' x') :
      AbsRun g r x r' x'

/-- `match` looks only at the samples of its pattern's length. -/
theorem matchAt_append_of_le {r b p : List Sample} (h : p.length ≤ r.length) : matchAt (r ++ b) 0 p = matchAt r 0 p := by
  rw [Bool.eq_iff_iff, matchAt_iff_take, matchAt_iff_take]
  simp [List.take_append_of_le_length h, h]
  omega

/-- The decoder looks only at the eight samples from the cursor (R39, R119). -/
theorem decode_append {g : Config} (hg : g.wf = true) {st : DecoderState} {n : Nat} {r b : List Sample} (h : 8 ≤ r.length) :
    decode g st n (r ++ b) 0 = decode g st n r 0 := by
  have w := g.wf_parts hg
  have hp := matchAt_append_of_le (r := r) (b := b) (p := g.catalog.pre) (by rw [w.pre_length]; exact h)
  have he := matchAt_append_of_le (r := r) (b := b) (p := g.catalog.eof) (by rw [w.eof_length]; omega)
  have hd := fun k => matchAt_append_of_le (r := r) (b := b) (p := g.catalog.data k) (by rw [w.data_length]; exact h)
  have hl : 8 ≤ r.length + b.length := by omega
  simp only [decode, classify, hp, he, hd, frameLen, List.length_append, Nat.zero_add, h, hl, if_true]

/-- The decoder at a cursor is the decoder at the start of the rest. -/
theorem decode_drop {g : Config} {st : DecoderState} {n : Nat} {W : List Sample} {c : Nat} (h : c ≤ W.length) :
    decode g st n W c = decode g st n (W.drop c) 0 := by
  simp only [decode, classify, matchAt_drop h, List.length_drop, frameLen, Nat.zero_add]
  by_cases hl : c + 8 ≤ W.length
  · have h8 : 8 ≤ W.length - c := by omega
    simp only [hl, h8, if_true]
  · have h8 : ¬ 8 ≤ W.length - c := by omega
    simp only [hl, h8, if_false]

theorem decode_mem {g : Config} {st : DecoderState} {n : Nat} {W : List Sample} {c : Nat} {i : Instr}
    (h : decode g st n W c = .ok i) : i ∈ decoderSteps := by
  obtain ⟨-, h⟩ := decode_eq_ok h
  rcases h with ⟨-, -, rfl⟩ | ⟨-, -, rfl⟩ | ⟨-, -, rfl⟩ | ⟨-, -, k, -, -, rfl⟩ | ⟨-, -, -, -, rfl⟩ | ⟨-, -, -, rfl⟩
  · simp [decoderSteps]
  · simp [decoderSteps]
  · simp [decoderSteps]
  · rcases code_cases k with rfl | rfl | rfl | rfl <;> simp [decoderSteps]
  · simp [decoderSteps]
  · simp [decoderSteps]

/-- The run is a function of the samples and where it begins. -/
theorem AbsRun.unique {g : Config} {r r1 r2 : List Sample} {x x1 x2 : Abs} (h1 : AbsRun g r x r1 x1)
    (h2 : AbsRun g r x r2 x2) : r1 = r2 ∧ x1 = x2 := by
  induction h1 generalizing r2 x2 with
  | stop h =>
    cases h2 with
    | stop => exact ⟨rfl, rfl⟩
    | step h' => omega
  | step h hd _ ih =>
    cases h2 with
    | stop h' => omega
    | step h' hd' hr' =>
      rw [hd] at hd'
      cases hd'
      exact ih hr'

/-- A run on a stream is an extension of the run on a prefix (R114). -/
theorem AbsRun.append {g : Config} (hg : g.wf = true) {r r1 r2 b : List Sample} {x x1 x2 : Abs}
    (h1 : AbsRun g r x r1 x1) (h2 : AbsRun g (r1 ++ b) x1 r2 x2) : AbsRun g (r ++ b) x r2 x2 := by
  induction h1 with
  | stop h => exact h2
  | @step r r' x x' i h hd _ ih =>
    refine .step (i := i) (by simp; omega) ((decode_append hg h).trans hd) ?_
    rw [List.drop_append_of_le_length ((stepAdvance_le i).trans h)]
    exact ih h2

/-- A state seen on absolute positions, with reports `reps` made before this invocation. -/
def State.abs (s : State) (base : Nat) (reps : List Report) : Abs where
  st := s.st
  fb := s.fb
  pos := base + s.cur
  trace := s.trace
  reps := reps

/-- A run of decoder steps to the place where none is enabled, seen on absolute positions. -/
theorem Decodes.absRun {n : Nat} {s t : State} (h : Decodes n s t) {v w : Invocation} (hv : s.inv = some v)
    (hw : t.inv = some w) (hc : s.cur ≤ v.window.length) (hb : v.window.length < t.cur + 8) (pre : List Report) :
    AbsRun s.cfg (v.window.drop s.cur) (s.abs (s.total - v.tailLen0) (pre ++ v.reps)) (v.window.drop t.cur)
      (t.abs (s.total - v.tailLen0) (pre ++ w.reps)) := by
  induction h generalizing v with
  | refl s =>
    obtain rfl : v = w := by rw [hv] at hw; exact Option.some.inj hw
    exact .stop (by simp; omega)
  | @step n s t v' i hv' hd hf h ih =>
    obtain rfl : v' = v := by rw [hv'] at hv; exact Option.some.inj hv
    obtain ⟨hi, hl, -⟩ := stepCondition_of_decodeAt hd
    have ha := stepAdvance_le i
    refine .step (i := i) (by simp; omega) ?_ ?_
    · have := decode_drop (g := s.cfg) (st := s.st) (n := s.fcnt) hc
      exact this ▸ hd
    · have := ih (v := _) rfl hw (by change s.cur + stepAdvance i ≤ v'.window.length; omega) hb
      rw [List.drop_drop]
      have e : (s.abs (s.total - v'.tailLen0) (pre ++ v'.reps)).after i =
          (afterStep i v' s).abs (s.total - v'.tailLen0)
            (pre ++ if i = .eof then v'.reps ++ [finalize s.fb] else v'.reps) := by
        by_cases he : i = .eof <;> simp [he, State.abs, Abs.after, afterStep, Nat.add_assoc]
      rw [e]
      exact this

end Sys2Proof.Machine
end

