-- ==== Sys2Proof/Tests/Slice0.lean ====
section
/-! SUPPORT. The model's own tests: ill-formed terms refused, windows of the spec decoded, one step per test, and for every statement
with hypotheses a state and operands that meet them together (`test_witness_…`). Expected results are the spec's: R50, the examples of
R85, R89 to R98, R116, and the vectors of 95_test_vectors.md, named at each test. -/

namespace Sys2Proof.Tests

open Sys2Proof.Machine

/-! ### Helpers -/

/-- The next state, where there is one. -/
def nextOf (o : Result) : Option State :=
  match o with
  | .next s => some s
  | .fault _ => none
  | .refused _ => none

/-- The refusal, where there is one. -/
def refusalOf (o : Result) : Option Refusal :=
  match o with
  | .next _ => none
  | .fault _ => none
  | .refused r => some r

/-- An instance with room for four symbols and 80 samples a chunk, for the tests. -/
def small : Config := { Config.default with frameCap := 4, chunkMax := 80 }

/-- An instance with 2-bit samples (V-CAT-7). -/
def wide : Config := { Config.default with sampleW := 2 }

/-- A state inside a PROCESS of `new`, the cursor at `c`, after `tail`. -/
def inside (st : DecoderState) (fb : List Code) (tail new : List Sample) (c : Nat) : State :=
  { State.ofConfig small with
    st := st, cur := c, tail := tail, fb := fb, total := tail.length
    inv := some { chunk := new, tailLen0 := tail.length, window := tail ++ new,
                  ann := List.replicate new.length .none, reps := [] } }

/-- A state between commands that receives a frame: after ten samples of `P D0 …`, R116, second chunking. -/
def midFrame : State :=
  { State.ofConfig small with
    st := .receivingData, cur := 5, tail := [1,1,0,1,1,1,0], total := 10, trace := [(0, .preamble)] }

/-- The rest of that stream, `D0 D1 D2 D3 E H*4` from its third sample on (R116). -/
def restOfFrame : List Sample :=
  [1,1,1,1,1,1] ++ [1,1,1,0,1,1,1,1] ++ [1,1,1,1,1,0,1,1] ++ [1,1,1,1,1,1,1,0] ++ [1,1,0,1] ++ [1,1,1,1]

/-! ### Well-formedness: each check refuses an ill-formed term -/

theorem test_wf_accepts_defaults : Config.default.wf = true ∧ small.wf = true ∧ wide.wf = true := by decide
theorem test_wf_chunk_too_long :
    (Instr.process (List.replicate 81 1)).wf small = false ∧ (Instr.process (List.replicate 80 1)).wf small = true := by decide
theorem test_wf_sample_too_wide :
    (Instr.process [1, 2]).wf small = false ∧ (Instr.process [1, 2]).wf wide = true ∧ (Instr.process [4]).wf wide = false := by
  decide
theorem test_wf_levels_differ : { Config.default with sHi := 0 }.wf = false := by decide
theorem test_wf_high_fits : { Config.default with sHi := 2 }.wf = false := by decide
theorem test_wf_low_fits : { Config.default with sLo := 2 }.wf = false := by decide
theorem test_wf_capacity : { Config.default with frameCap := 0 }.wf = false := by decide
theorem test_wf_preamble_length : ({ Catalog.default with pre := [0,1,1,1,1,0,1] }).wf 1 0 = false := by decide
theorem test_wf_preamble_levels : ({ Catalog.default with pre := [0,1,1,1,1,0,1,2] }).wf 1 0 = false := by decide
theorem test_wf_eof_length : ({ Catalog.default with eof := [1,1,0,1,1] }).wf 1 0 = false := by decide
theorem test_wf_eof_levels : ({ Catalog.default with eof := [1,1,0,2] }).wf 1 0 = false := by decide
theorem test_wf_data_length : dataPatternWf 1 0 [1,0,1,1,1,1,1] = false := by decide
theorem test_wf_data_levels : dataPatternWf 1 0 [1,0,1,1,2,1,1,1] = false := by decide
theorem test_wf_data_one_low : dataPatternWf 1 0 [1,0,1,0,1,1,1,1] = false ∧ dataPatternWf 1 0 [1,1,1,1,1,1,1,1] = false := by
  decide
theorem test_wf_each_data_pattern :
    ({ Catalog.default with d00 := [1,1,1,1,1,1,1,1] }).wf 1 0 = false ∧
    ({ Catalog.default with d01 := [1,1,1,1,1,1,1,1] }).wf 1 0 = false ∧
    ({ Catalog.default with d10 := [1,1,1,1,1,1,1,1] }).wf 1 0 = false ∧
    ({ Catalog.default with d11 := [1,1,1,1,1,1,1,1] }).wf 1 0 = false := by decide
theorem test_wf_data_differ :
    ({ Catalog.default with d01 := Catalog.default.d00 }).wf 1 0 = false ∧
    ({ Catalog.default with d10 := Catalog.default.d00 }).wf 1 0 = false ∧
    ({ Catalog.default with d11 := Catalog.default.d00 }).wf 1 0 = false ∧
    ({ Catalog.default with d10 := Catalog.default.d01 }).wf 1 0 = false ∧
    ({ Catalog.default with d11 := Catalog.default.d01 }).wf 1 0 = false ∧
    ({ Catalog.default with d11 := Catalog.default.d10 }).wf 1 0 = false := by decide
/-- R65, R8 (e), (f): the default catalog has the two further properties; a catalog without (e) is still well formed. -/
theorem test_wf_further_properties :
    Catalog.default.eofApart = true ∧ Catalog.default.preApart = true ∧
    ({ Catalog.default with eof := [1,0,1,1] }).eofApart = false ∧ ({ Catalog.default with eof := [1,0,1,1] }).wf 1 0 = true ∧
    ({ Catalog.default with pre := [1,0,1,1,1,1,1,1] }).preApart = false := by decide

/-! ### Decoding: the spec's windows, `s0` first (R50, R53; vectors V-CAT) -/

theorem test_decode_preamble : decode small .seekingPreamble 0 [0,1,1,1,1,0,1,1] 0 = .ok .preamble := by decide
theorem test_decode_skip : decode small .seekingPreamble 0 [1,1,1,1,1,1,1,1,1] 0 = .ok .skip := by decide
theorem test_decode_eof : decode small .receivingData 4 [1,1,0,1,1,1,1,1] 0 = .ok .eof := by decide
theorem test_decode_data00 : decode small .receivingData 0 [1,0,1,1,1,1,1,1] 0 = .ok .data00 := by decide
theorem test_decode_data01 : decode small .receivingData 1 [1,1,1,0,1,1,1,1] 0 = .ok .data01 := by decide
theorem test_decode_data10 : decode small .receivingData 2 [1,1,1,1,1,0,1,1] 0 = .ok .data10 := by decide
theorem test_decode_data11 : decode small .receivingData 3 [1,1,1,1,1,1,1,0] 0 = .ok .data11 := by decide
theorem test_decode_overflow : decode small .receivingData 4 [1,0,1,1,1,1,1,1] 0 = .ok .corruptOvf := by decide
theorem test_decode_corrupt : decode small .receivingData 2 [1,1,0,0,1,1,1,1] 0 = .ok .corrupt := by decide
/-- R97 (b): a Preamble inside a frame is a mismatch. -/
theorem test_decode_preamble_in_frame : decode small .receivingData 0 [0,1,1,1,1,0,1,1] 0 = .ok .corrupt := by decide
/-- V-CAT-6: the two single flips that are an EOF. -/
theorem test_decode_flips_to_eof :
    decode small .receivingData 0 [1,1,0,1,1,0,1,1] 0 = .ok .eof ∧ decode small .receivingData 0 [1,1,0,1,1,1,1,0] 0 = .ok .eof := by
  decide
/-- V-CAT-4: offsets. -/
theorem test_match_offsets :
    matchAt [1,0,1,1,1,1,0,1,1] 0 Catalog.default.pre = false ∧ matchAt [1,0,1,1,1,1,0,1,1] 1 Catalog.default.pre = true ∧
    matchAt [1,0,1,1,1,1,0,1,1] 2 Catalog.default.pre = false := by decide
/-- V-CAT-7: a foreign sample matches nothing. -/
theorem test_decode_foreign_sample :
    decode wide .seekingPreamble 0 [1,0,1,1,1,2,1,1] 0 = .ok .skip ∧ decode wide .receivingData 0 [1,0,1,1,1,2,1,1] 0 = .ok .corrupt := by
  decide
theorem test_decode_needs_eight : decode small .receivingData 0 [1,1,0,1,1,1,1] 0 = .error .fewerThanEightSamples := by decide

/-- The encoder gives the patterns of R50. -/
theorem test_encode :
    encode small .preamble = some [0,1,1,1,1,0,1,1] ∧ encode small .eof = some [1,1,0,1] ∧
    encode small .data10 = some [1,1,1,1,1,0,1,1] ∧ encode small .reset = none := by decide

/-- The opcode table's words, each pattern's string as the table writes it. -/
theorem test_table_words :
    decodeTableWord 8 0b01111011 = some .preamble ∧ decodeTableWord 8 0b1101 = some .eof ∧
    decodeTableWord 8 0b10111111 = some .data00 ∧ decodeTableWord 8 0b11101111 = some .data01 ∧
    decodeTableWord 8 0b11111011 = some .data10 ∧ decodeTableWord 8 0b11111110 = some .data11 ∧
    decodeTableWord 8 0 = some .skip := by decide
/-- The placed word is the next one the machine runs. -/
theorem test_placed_word_runs :
    (nextOf (step (State.reset.withFetchWord 8 0b11101111))).map (fun t => (t.fb, t.cur, t.trace)) =
      some ([1#2], 8, [(0, .data01)]) ∧
    (nextOf (step (State.reset.withFetchWord 8 0b01111011))).map (fun t => (t.st, t.cur, t.trace)) =
      some (.receivingData, 8, [(0, .preamble)]) := by decide

/-! ### One step of each instruction (the examples of R89 to R98, R132, R103, R113, R116) -/

theorem test_preamble :
    (nextOf (exec .preamble (inside .seekingPreamble [] [] ([0,1,1,1,1,0,1,1] ++ [1,0,1,1,1,1,1,1]) 0))).map
      (fun t => (t.st, t.cur, t.fb, t.trace)) = some (.receivingData, 8, [], [(0, .preamble)]) := by decide
/-- R89, R110: a Preamble that begins in the carry-over prefix is recognised, its marker not written. -/
theorem test_preamble_in_prefix :
    (nextOf (exec .preamble (inside .seekingPreamble [] [1,1,0,1,1,1,1] [0,1,1,1] 2))).map
      (fun t => (t.st, t.cur, t.trace, t.inv.map Invocation.ann)) =
      some (.receivingData, 10, [(2, .preamble)], some [.none, .none, .none, .none]) := by decide
theorem test_skip :
    (nextOf (exec .skip (inside .seekingPreamble [] [] [1,1,1,1,1,1,1,1,1] 0))).map (fun t => (t.st, t.cur, t.trace)) =
      some (.seekingPreamble, 1, []) := by decide
theorem test_eof_empty_frame :
    (nextOf (exec .eof (inside .receivingData [] [] [1,1,0,1,1,1,1,1] 0))).map
      (fun t => (t.st, t.cur, t.fb, t.inv.map Invocation.reps)) =
      some (.seekingPreamble, 4, [],
        some [{ nSym := 0, flag := 0, command := 0, payloadSyms := 0, payload := 0, crcField := 0, crcOk := false, short := true }]) := by
  decide
/-- R85: the report of the inventory request, written at `c` with an empty buffer left. -/
theorem test_eof_inventory_request :
    (nextOf (exec .eof (inside .receivingData [2,1,2,0, 1,0,0,0, 0,0,0,0, 2,1,3,3, 2,2,0,0] [] [1,1,0,1,1,1,1,1] 0))).map
      (fun t => (t.fb, t.trace, t.inv.map Invocation.reps)) =
      some ([], [(0, .eof)],
        some [{ nSym := 20, flag := 0x26, command := 0x01, payloadSyms := 4, payload := 0, crcField := 0x0AF6, crcOk := true,
                short := false }]) := by decide +kernel
theorem test_data00 :
    (nextOf (exec .data00 (inside .receivingData [] [] [1,0,1,1,1,1,1,1] 0))).map (fun t => (t.st, t.cur, t.fb, t.trace)) =
      some (.receivingData, 8, [0#2], [(0, .data00)]) := by decide
theorem test_data01 :
    (nextOf (exec .data01 (inside .receivingData [0#2] [] [1,1,1,0,1,1,1,1] 0))).map (fun t => (t.st, t.cur, t.fb, t.trace)) =
      some (.receivingData, 8, [0#2, 1#2], [(0, .data01)]) := by decide
theorem test_data10 :
    (nextOf (exec .data10 (inside .receivingData [0#2, 1#2] [] [1,1,1,1,1,0,1,1] 0))).map (fun t => (t.st, t.cur, t.fb, t.trace)) =
      some (.receivingData, 8, [0#2, 1#2, 2#2], [(0, .data10)]) := by decide
theorem test_data11 :
    (nextOf (exec .data11 (inside .receivingData [0#2, 1#2, 2#2] [] [1,1,1,1,1,1,1,0] 0))).map
      (fun t => (t.st, t.cur, t.fb, t.trace)) =
      some (.receivingData, 8, [0#2, 1#2, 2#2, 3#2], [(0, .data11)]) := by decide
theorem test_corrupt :
    (nextOf (exec .corrupt (inside .receivingData [2#2, 1#2] [] [1,1,0,0,1,1,1,1] 0))).map
      (fun t => ((t.st, t.cur, t.fb), (t.trace, t.inv.map Invocation.reps))) =
      some ((.seekingPreamble, 4, []), ([(0, .corrupted)], some [])) := by decide
theorem test_overflow :
    (nextOf (exec .corruptOvf (inside .receivingData [0#2, 1#2, 2#2, 3#2] [] [1,0,1,1,1,1,1,1] 0))).map
      (fun t => ((t.st, t.cur, t.fb), (t.trace, t.inv.map Invocation.reps))) =
      some ((.seekingPreamble, 4, []), ([(0, .corrupted)], some [])) := by decide
/-- R88: the step not selected is refused: a full buffer, DATA00. -/
theorem test_data00_full_buffer :
    refusalOf (exec .data00 (inside .receivingData [0#2, 1#2, 2#2, 3#2] [] [1,0,1,1,1,1,1,1] 0)) = some .conditionNotMet := by decide
theorem test_reset :
    (nextOf (exec .reset midFrame)).map (fun t => (t.st, t.cur, t.tail, t.total)) =
      some (.seekingPreamble, 0, [], 0) := by decide
/-- R116, second chunk: the marker of DATA00 falls in the prefix; one report; end state. -/
theorem test_process_second_chunk :
    (nextOf (exec (.process restOfFrame) midFrame)).map (fun t => (t.st, t.cur, t.trace)) =
      some (.seekingPreamble, 3,
        [(0, .preamble), (8, .data00), (16, .data01), (24, .data10), (32, .data11), (40, .eof)]) ∧
    (nextOf (exec (.process restOfFrame) midFrame)).map (fun t => t.delivered.map fun d => d.ann.zipIdx.filter fun p => p.1 ≠ .none) =
      some [[(.data01, 6), (.data10, 14), (.data11, 22), (.eof, 30)]] ∧
    (nextOf (exec (.process restOfFrame) midFrame)).map (fun t => t.delivered.map Delivery.reps) =
      some [[{ nSym := 4, flag := 0xE4, command := 0, payloadSyms := 0, payload := 0, crcField := 0xE4, crcOk := false,
               short := true }]] := by decide +kernel
/-- V-STI-4: the first samples after RESET are kept in a tail shorter than 7. -/
theorem test_process_first_sample :
    (nextOf (exec (.process [0]) .reset)).map (fun t => (t.tail, t.cur, t.total)) = some ([0], 0, 1) := by decide

/-! ### Operations (V-ACC, V-CRC) -/

theorem test_to_value :
    toValue [2#2, 1#2, 2#2, 0#2] 0 4 = 0x26 ∧ toValue [2#2, 1#2, 2#2, 0#2] 1 3 = 0x9 ∧ toValue [2#2, 1#2, 2#2, 0#2] 2 2 = 0 ∧
    toValue [2#2, 1#2, 2#2, 0#2] 3 9 = 0 ∧ toValue [2#2, 1#2, 2#2, 0#2] (-4) 4 = 0x26 := by decide
/-- V-ACC-3 with `N = 15`: the clamped, overlapping ranges of a short frame. -/
theorem test_finalize_short :
    finalize [1,0,3,2, 1,0,3,2, 1,0,3,2, 1,0,3] =
      { nSym := 15, flag := 0xB1, command := 0xB1, payloadSyms := 0, payload := 0, crcField := 0xC6C6, crcOk := false,
        short := true } := by decide +kernel
/-- V-CRC-2, V-CRC-4, V-CRC-6. -/
theorem test_crc :
    crcReg 0x07EA052002 40 = 0xF0B8#16 ∧ crcReg 0 8 = 0x0F87#16 ∧ crcReg 3 2 = 0x3D1C#16 ∧ crcReg 0x0AF6000126 48 = 0x3933#16 := by
  decide +kernel
/-- R60: the request of R75 as a stream has its CRC bytes `F6 0A`. -/
theorem test_request_bytes : withCrc [0x26, 0x01, 0x00] = [0x26, 0x01, 0x00, 0xF6, 0x0A] := by decide +kernel
/-- R59: a boundary ends a chunk; two boundaries in a row are an empty chunk. -/
theorem test_assemble : assemble small [.h, .bar, .bar, .l, .x 1] = [[1], [], [0, 1]] := by decide

/-! ### Witnesses: states and operands that meet each statement's hypotheses -/

theorem test_witness_ResetSetsEveryElement : midFrame.inv = none := rfl
theorem test_witness_BuildNeedsWellFormedThenReset : { small with frameCap := 0 }.wf = false ∧ small.wf = true := by decide
theorem test_witness_HostDutiesAreRefused :
    (({ midFrame with started := false } : State).inv = none ∧ ({ midFrame with started := false } : State).started = false) ∧
    (∃ v, (inside .seekingPreamble [] [] [1] 0).inv = some v) ∧
    (midFrame.inv = none ∧ midFrame.started = true ∧ midFrame.cfg.chunkMax < (List.replicate 81 1).length) ∧
    ((List.replicate 79 1 ++ [2]).length ≤ midFrame.cfg.chunkMax ∧ 2 ∈ List.replicate 79 1 ++ [2] ∧ 2 ^ midFrame.cfg.sampleW ≤ 2) := by
  exact ⟨⟨rfl, rfl⟩, ⟨_, rfl⟩, ⟨rfl, rfl, by decide⟩, by decide⟩
theorem test_witness_StepTakesTheNextCommand :
    (midFrame.inv = none ∧ midFrame.pending = []) ∧
    (({ midFrame with pending := [.reset] } : State).inv = none ∧ ({ midFrame with pending := [.reset] } : State).pending = .reset :: []) ∧
    (({ midFrame with pending := [.process (List.replicate 80 1), .reset] } : State).pending =
        .process (List.replicate 80 1) :: [.reset] ∧
      midFrame.started = true ∧ (Instr.process (List.replicate 80 1)).wf midFrame.cfg = true ∧
      (Instr.process []).wf midFrame.cfg = true) := by decide

/-- A Preamble whose eight samples are the last eight of the window. -/
def atPreamble : State := inside .seekingPreamble [] [1,1,1,1,1,1,1] [1,0,1,1,1,1,0,1,1] 8
/-- A window that is no Preamble. -/
def atSkip : State := inside .seekingPreamble [] [1,1,1,1,1,1,1] [1,1] 0
/-- An EOF in the carry-over prefix, two symbols in the buffer. -/
def atEof : State := inside .receivingData [1#2, 2#2] [0,1,1,1,1,1,0] [1,0,1,1,0] 4
/-- A full buffer at a Data symbol. -/
def atOverflow : State := inside .receivingData [0#2, 0#2, 0#2, 0#2] [] [1,1,1,0,1,1,1,1] 0
/-- A window that is neither EOF nor Data. -/
def atCorrupt : State := inside .receivingData [1#2] [] [1,1,0,0,1,1,1,1] 0
/-- The Data symbol with window `w`, one symbol in the buffer. -/
def atData (w : List Sample) : State := inside .receivingData [1#2] [1,1,1] w 3

/-- The invocation of a state, an empty one where there is none. -/
def invOf (s : State) : Invocation := s.inv.getD { chunk := [], tailLen0 := 0, window := [], ann := [], reps := [] }

/-- The state's own parts of the hypotheses of a decoder step's result. -/
abbrev Ready (s : State) : Prop := s.canStep (invOf s) ∧ markerFits s (invOf s)

theorem test_witness_StepRunsTheDecodedInstruction :
    atSkip.inv = some (invOf atSkip) ∧
      decode atSkip.cfg atSkip.st atSkip.fb.length (invOf atSkip).window atSkip.cur = .ok .skip := by decide
theorem test_witness_StepEndsTheInvocation :
    (inside .receivingData [] [1,1,1] [0,1,1,1,1] 1).inv = some (invOf (inside .receivingData [] [1,1,1] [0,1,1,1,1] 1)) ∧
      (invOf (inside .receivingData [] [1,1,1] [0,1,1,1,1] 1)).window.length <
        (inside .receivingData [] [1,1,1] [0,1,1,1,1] 1).cur + 8 := by decide
theorem test_witness_PreambleResult :
    Ready atPreamble ∧ atPreamble.st = .seekingPreamble ∧
      matchAt (invOf atPreamble).window atPreamble.cur atPreamble.cfg.catalog.pre = true := by decide
theorem test_witness_SkipResult :
    atSkip.canStep (invOf atSkip) ∧ atSkip.st = .seekingPreamble ∧
      matchAt (invOf atSkip).window atSkip.cur atSkip.cfg.catalog.pre = false := by decide
theorem test_witness_EofResult :
    Ready atEof ∧ atEof.st = .receivingData ∧ matchAt (invOf atEof).window atEof.cur atEof.cfg.catalog.eof = true := by decide
theorem test_witness_DataResult :
    ∀ p ∈ [([1,0,1,1,1,1,1,1], 0#2), ([1,1,1,0,1,1,1,1], 1#2), ([1,1,1,1,1,0,1,1], 2#2), ([1,1,1,1,1,1,1,0], 3#2)],
      Ready (atData p.1) ∧ (atData p.1).st = .receivingData ∧
      matchAt (invOf (atData p.1)).window 3 small.catalog.eof = false ∧
      classify small (invOf (atData p.1)).window 3 = some p.2 ∧ (atData p.1).fb.length < small.frameCap := by decide
theorem test_witness_CorruptResult :
    Ready atCorrupt ∧ atCorrupt.st = .receivingData ∧ matchAt (invOf atCorrupt).window 0 small.catalog.eof = false ∧
      classify small (invOf atCorrupt).window 0 = none := by decide
theorem test_witness_OverflowResult :
    Ready atOverflow ∧ atOverflow.st = .receivingData ∧ matchAt (invOf atOverflow).window 0 small.catalog.eof = false ∧
      classify small (invOf atOverflow).window 0 = some 1#2 ∧ atOverflow.fb.length = atOverflow.cfg.frameCap := by decide
/-- Every one of the nine steps is the selected one somewhere. -/
theorem test_witness_ExactlyOneStepIsSelected :
    ∀ p ∈ [(atPreamble, Instr.preamble), (atSkip, .skip), (atEof, .eof), (atData [1,0,1,1,1,1,1,1], .data00),
        (atData [1,1,1,0,1,1,1,1], .data01), (atData [1,1,1,1,1,0,1,1], .data10), (atData [1,1,1,1,1,1,1,0], .data11),
        (atOverflow, .corruptOvf), (atCorrupt, .corrupt)],
      Ready p.1 ∧ p.2 ∈ decoderSteps ∧ decodeAt (invOf p.1) p.1 = .ok p.2 ∧ (nextOf (exec p.2 p.1)).isSome = true := by decide
/-- The same states meet the hypotheses of the table row and of the frame, for each step. -/
theorem test_witness_StepTableRow_DecoderStepFrame :
    (∃ t, exec .preamble atPreamble = .next t) ∧ (∃ t, exec .skip atSkip = .next t) ∧ (∃ t, exec .eof atEof = .next t) ∧
    (∃ t, exec .data00 (atData [1,0,1,1,1,1,1,1]) = .next t) ∧ (∃ t, exec .data01 (atData [1,1,1,0,1,1,1,1]) = .next t) ∧
    (∃ t, exec .data10 (atData [1,1,1,1,1,0,1,1]) = .next t) ∧ (∃ t, exec .data11 (atData [1,1,1,1,1,1,1,0]) = .next t) ∧
    (∃ t, exec .corruptOvf atOverflow = .next t) ∧ (∃ t, exec .corrupt atCorrupt = .next t) :=
  ⟨⟨_, rfl⟩, ⟨_, rfl⟩, ⟨_, rfl⟩, ⟨_, rfl⟩, ⟨_, rfl⟩, ⟨_, rfl⟩, ⟨_, rfl⟩, ⟨_, rfl⟩, ⟨_, rfl⟩⟩
theorem test_witness_StepKeepsTheInvariant :
    atPreamble.Inv ∧ (∃ t, step atPreamble = .next t) ∧ midFrame.Inv ∧ (∃ t, step midFrame = .next t) :=
  ⟨by decide, ⟨_, rfl⟩, by decide, ⟨_, rfl⟩⟩
theorem test_witness_StepKeepsTheTraceOrdered :
    midFrame.Inv ∧ midFrame.TraceInv ∧ ∃ t, step { midFrame with pending := [.process [1]] } = .next t :=
  ⟨by decide, by decide, ⟨_, rfl⟩⟩
theorem test_witness_ResetSatisfiesTheInvariants : small.wf = true := by decide
theorem test_witness_NoStepFails : atData [1,1,1,1,1,0,1,1] |>.Inv := by decide
theorem test_witness_BufferContentsDoNotSteer :
    atEof.inv = some (invOf atEof) ∧ [3#2, 3#2].length = atEof.fb.length ∧ ∃ t, exec .eof atEof = .next t :=
  ⟨rfl, rfl, ⟨_, rfl⟩⟩
theorem test_witness_ClassifyIsTheOneMatch :
    wide.wf = true ∧ classify wide [2,1,1,1,0,1,1,1,1] 1 = some 1#2 ∧ classify wide [2,1,1,1,0,1,1,1,1] 0 = none := by decide
theorem test_witness_OneFlippedSampleIsNoData : small.wf = true ∧ (0 < 8 ∧ 7 < 8) := by decide
theorem test_witness_ForeignSampleMatchesNothing :
    wide.wf = true ∧ 1 + 8 ≤ [1,1,0,1,0,1,1,1,2].length ∧ [1,1,0,1,0,1,1,1,2][1 + 7]? = some 2 ∧ 2 ≠ wide.sHi ∧ 2 ≠ wide.sLo ∧
      matchAt [1,1,0,1,0,1,1,1,2] 1 wide.catalog.eof = false ∧ [1,1,0,2,0,1,1,1,1][0 + 3]? = some 2 := by decide
theorem test_witness_DecodeOfEncode :
    small.wf = true ∧ small.catalog.eofApart = true ∧
    (∀ i ∈ [Instr.preamble, .skip, .data00, .data01, .data10, .data11, .corruptOvf, .corrupt],
      (encode small i).map List.length = some 8) ∧
    encode small .eof = some [1,1,0,1] ∧ 8 ≤ [1,1,0,1].length + [0,0,0,0].length ∧ ¬ 4 < small.frameCap ∧ 3 < small.frameCap := by
  decide
theorem test_witness_DecodedPatternStandsInTheWindow :
    decode small .receivingData 3 [0,1,1,1,0,1,1,1,1] 1 = .ok .data01 ∧ encode small .data01 = some [1,1,1,0,1,1,1,1] := by decide
theorem test_witness_ToValueFoldsTheClampedRange :
    (min (0 : Int) [2#2, 1#2].length ≤ max (-3) 0) ∧
    ((1 : Int) = max (-3) 0 + (1 : Nat) ∧ (1 : Int) < min 9 [2#2, 1#2].length) ∧
    (max (-3 : Int) 0 ≤ min 2 [2#2, 1#2].length) := by decide
theorem test_witness_FieldsMakeUpTheFrame : 16 ≤ (List.replicate 16 1#2).length := by decide
theorem test_witness_OneFlippedBitFailsTheCrc : 39 < 40 ∧ validate 0x0AF6000126 40 = true := by decide +kernel

/-- The stream of R116, `P D0 D1 D2 D3 E H*4`. -/
def stream : List Sample := frameOfSymbols small [0#2, 1#2, 2#2, 3#2] ++ [1,1,1,1]

/-- The state after that stream: it seeks, its cursor inside a full tail. -/
def afterFrame : State := (nextOf (exec (.process stream) (State.ofConfig small))).getD (State.ofConfig small)

/-- R116: the end state of the run that leads there, and that it is a run. -/
theorem test_afterFrame_is_reached :
    (nextOf (exec (.process stream) (State.ofConfig small))).isSome = true ∧ afterFrame.st = .seekingPreamble ∧ afterFrame.cur = 3 ∧
      afterFrame.tail = [1,0,1,1,1,1,1] ∧ afterFrame.fb = [] ∧ afterFrame.total = 48 := by decide +kernel

theorem test_witness_ProcessCompletes :
    midFrame.Inv ∧ midFrame.inv = none ∧ midFrame.started = true ∧ (Instr.process restOfFrame).wf midFrame.cfg = true ∧
      (Instr.process (List.replicate 80 0)).wf midFrame.cfg = true ∧ (Instr.process []).wf midFrame.cfg = true := by decide
theorem test_witness_StepsCarryOutProcess :
    ({ midFrame with pending := [.process restOfFrame] } : State).Inv ∧ midFrame.inv = none ∧
      ∃ t, exec (.process restOfFrame) { midFrame with pending := [] } = .next t :=
  ⟨by decide, rfl, ⟨_, rfl⟩⟩
theorem test_witness_EmptyChunkChangesNothing : midFrame.Inv ∧ midFrame.inv = none ∧ midFrame.started = true := by decide
theorem test_witness_ChunkingDoesNotMatter :
    midFrame.Inv ∧ midFrame.inv = none ∧ [restOfFrame].flatten = [restOfFrame.take 5, [], restOfFrame.drop 5].flatten ∧
      (∃ t, runChunks [restOfFrame] midFrame = .next t) ∧
      (∃ u, runChunks [restOfFrame.take 5, [], restOfFrame.drop 5] midFrame = .next u) :=
  ⟨by decide, rfl, by decide, ⟨_, rfl⟩, ⟨_, rfl⟩⟩
theorem test_witness_TailIsTheEndOfTheStream :
    small.wf = true ∧ ∃ t, runChunks [[0], [], [1,1,1,1,0,1,1,1,0]] (State.ofConfig small) = .next t :=
  ⟨by decide, ⟨_, rfl⟩⟩
theorem test_witness_AnnotationShowsTheMarkersOfThisChunk :
    midFrame.Inv ∧ midFrame.TraceInv ∧ midFrame.inv = none ∧ ∃ t, exec (.process restOfFrame) midFrame = .next t :=
  ⟨by decide, by decide, rfl, ⟨_, rfl⟩⟩
theorem test_witness_ShortChunkDeliversNoMarker :
    midFrame.Inv ∧ midFrame.TraceInv ∧ midFrame.inv = none ∧ (restOfFrame.take 7).length < 8 ∧
      ∃ t, exec (.process (restOfFrame.take 7)) midFrame = .next t :=
  ⟨by decide, by decide, rfl, by decide, ⟨_, rfl⟩⟩
theorem test_witness_NoPreambleNoSymbol :
    afterFrame.Inv ∧ afterFrame.inv = none ∧ afterFrame.st = .seekingPreamble ∧
      (∀ off, afterFrame.cur ≤ off → matchAt (afterFrame.tail ++ List.replicate 9 1) off afterFrame.cfg.catalog.pre = false) ∧
      ∃ t, exec (.process (List.replicate 9 1)) afterFrame = .next t := by
  refine ⟨by decide +kernel, by decide +kernel, by decide +kernel, ?_, ?_⟩
  · intro off h
    by_cases h8 : off ≤ 8
    · have key : ∀ off, off < 9 → matchAt (afterFrame.tail ++ List.replicate 9 1) off afterFrame.cfg.catalog.pre = false := by
        decide +kernel
      exact key off (by omega)
    · have hl : (afterFrame.tail ++ List.replicate 9 1).length = 16 ∧ afterFrame.cfg.catalog.pre.length = 8 := by decide +kernel
      have : ¬ off + 8 ≤ 16 := by omega
      simp only [matchAt, hl.1, hl.2, this, decide_false, Bool.false_and]
  · have h : (nextOf (exec (.process (List.replicate 9 1)) afterFrame)).isSome = true := by decide +kernel
    cases he : exec (.process (List.replicate 9 1)) afterFrame with
    | next t => exact ⟨t, rfl⟩
    | fault r => rw [he] at h; cases h
    | refused r => rw [he] at h; cases h

/-- A state and a chunk that meet the hypotheses the four statements on frames share: a good state that seeks, a chunk of `lead` and
`rest` that the host may send, no Preamble before the end of `lead`. -/
abbrev FrameMayFollow (s : State) (lead rest : List Sample) : Prop :=
  s.Inv ∧ s.inv = none ∧ s.started = true ∧ s.st = .seekingPreamble ∧ s.cfg.catalog.eofApart = true ∧
    (Instr.process (lead ++ rest)).wf s.cfg = true ∧ s.quietUntil (s.tail ++ (lead ++ rest)) (s.tail.length + lead.length)

/-- A frame that fills the buffer exactly: after an earlier frame with idle samples between, and straight after RESET. -/
theorem test_witness_FrameIsDecoded :
    [0#2, 1#2, 2#2, 3#2].length ≤ afterFrame.cfg.frameCap ∧ [0, 1, 1, 0].length = 4 ∧
      FrameMayFollow afterFrame [1,1,1,1,1] (frameOfSymbols afterFrame.cfg [0#2, 1#2, 2#2, 3#2] ++ [0, 1, 1, 0]) ∧
      FrameMayFollow (State.ofConfig small) [] (frameOfSymbols small [0#2, 1#2, 2#2, 3#2] ++ [0, 1, 1, 0]) := by decide +kernel
/-- Program P1: five idle samples, then the inventory request. -/
theorem test_witness_RequestIsDecodedWithGoodCrc :
    4 * ([(0 : Byte)].length + 4) ≤ State.reset.cfg.frameCap ∧
      FrameMayFollow .reset [1,1,1,1,1] (request State.reset.cfg [0x26, 0x01, 0x00] ++ [1,1,1,1]) := by decide +kernel
theorem test_witness_ConsecutiveFramesAreDecoded :
    (∀ ks ∈ [[], [1#2], [2#2, 3#2]], ks.length ≤ afterFrame.cfg.frameCap) ∧
      FrameMayFollow afterFrame [0,0] ([[], [1#2], [2#2, 3#2]].flatMap (frameOfSymbols afterFrame.cfg) ++ [1,1,1,1]) := by
  decide +kernel
theorem test_witness_EofWaitsForFourMoreSamples :
    [1#2, 1#2, 1#2, 1#2].length ≤ afterFrame.cfg.frameCap ∧
      FrameMayFollow afterFrame [1,1,1] (frameOfSymbols afterFrame.cfg [1#2, 1#2, 1#2, 1#2]) ∧
      samplesFit afterFrame.cfg [0, 1, 0, 1] = true := by decide +kernel
/-- A Preamble under the cursor while a frame is received. -/
theorem test_witness_PreambleInsideAFrameIsLost :
    Ready (atData [0,1,1,1,1,0,1,1]) ∧ small.wf = true ∧ small.catalog.preApart = true ∧
      small.catalog.pre.take 4 ≠ small.catalog.eof ∧ matchAt (invOf (atData [0,1,1,1,1,0,1,1])).window 3 small.catalog.pre = true := by
  decide
theorem test_witness_ProcessExtendsTheStream :
    midFrame.follows [0,1,1,1,1,0,1,1,1,0] ∧ (State.ofConfig small).follows [] ∧
      (∃ t, exec (.process [1]) midFrame = .next t) ∧ ∃ t, exec .reset midFrame = .next t :=
  ⟨by decide, by decide, ⟨_, rfl⟩, ⟨_, rfl⟩⟩

end Sys2Proof.Tests
end

section
/-! The obligations of scope: the reset value, the building of an instance, and the order of the marker trace. -/

namespace Sys2Proof.Machine

/-! ### Building an instance and the commands before the first RESET -/

theorem build_of_wf_false {g : Config} (hg : g.wf = false) (p : State) : build g p = .refused .illFormedConfig := by
  simp [build, hg]

theorem build_of_wf {g : Config} (hg : g.wf = true) (p : State) :
    build g p = .next { p with cfg := g, started := false, inv := none } := by
  simp [build, hg]

/-- Between commands, a PROCESS before any RESET does not even open its invocation (R134, R136 (a)). -/
theorem openInvocation_of_not_started {s : State} (hi : s.inv = none) (hs : s.started = false) (new : List Sample) :
    openInvocation new s = .refused .processBeforeReset := by
  simp [openInvocation, hi, hs]

theorem exec_process_of_not_started {s : State} (hi : s.inv = none) (hs : s.started = false) (new : List Sample) :
    exec (.process new) s = .refused .processBeforeReset := by
  simp [exec, execProcess, openInvocation_of_not_started hi hs]

/-- RESET leaves the state of R26 for the instance's own parameters; only the host's two lists survive it (R132). -/
theorem exec_reset_of_idle {s : State} (hi : s.inv = none) :
    exec .reset s = .next { State.ofConfig s.cfg with pending := s.pending, delivered := s.delivered } := by
  rw [execReset_eq_next]
  exact ⟨hi, by simp [State.ofConfig, hi]⟩

/-! ### The marker trace

The cursor's absolute position `base + cur` never moves back, except in a RESET, which empties the trace; a marker stands at that
position and the step that emits it moves beyond it. -/

/-- A trace that is left alone stays ordered where the absolute cursor does not move back. -/
theorem traceInv_of_trace_eq {s t : State} (ht : t.trace = s.trace) (hle : s.base + s.cur ≤ t.base + t.cur)
    (h : s.TraceInv) : t.TraceInv := by
  obtain ⟨hord, hbefore, hkind⟩ := h
  unfold State.TraceInv
  rw [ht]
  exact ⟨hord, fun e he => (hbefore e he).trans_le hle, hkind⟩

/-- A marker put at the absolute cursor comes after all earlier ones. -/
theorem traceInv_of_trace_append {s t : State} {m : Marker} (ht : t.trace = s.trace ++ [(s.base + s.cur, m)])
    (hm : m ≠ .none) (hlt : s.base + s.cur < t.base + t.cur) (h : s.TraceInv) : t.TraceInv := by
  obtain ⟨hord, hbefore, hkind⟩ := h
  unfold State.TraceInv
  simp only [ht, List.pairwise_append, List.forall_mem_append, List.forall_mem_singleton, List.pairwise_singleton]
  exact ⟨⟨hord, trivial, hbefore⟩, ⟨fun e he => (hbefore e he).trans hlt, hlt⟩, hkind, hm⟩

/-- The marker column of R53 never holds NONE (R56). -/
theorem stepMarker_ne_some_none (i : Instr) : stepMarker i ≠ some .none := by
  cases i <;> simp [stepMarker]

/-- A decoder step puts its marker, where it has one, at the absolute cursor, and moves on (R99, R110). -/
theorem traceInv_afterStep {i : Instr} {s : State} {v : Invocation} (hv : s.inv = some v) (hi : i ∈ decoderSteps)
    (hmem : Memory.wf s = true) (h : s.TraceInv) : (afterStep i v s).TraceInv := by
  obtain ⟨-, -, -, -, hprefix, -⟩ := (memory_wf_busy hv).1 hmem
  have hmoves : s.base + s.cur < (afterStep i v s).base + (afterStep i v s).cur :=
    Nat.add_lt_add_left (Nat.lt_add_of_pos_right (stepAdvance_pos hi)) s.base
  cases hk : stepMarker i with
  | none => exact traceInv_of_trace_eq (by simp [afterStep, hk]) hmoves.le h
  | some m =>
    refine traceInv_of_trace_append (m := m) ?_ ?_ hmoves h
    · simp [afterStep, hk, hprefix, base_eq]
    · rintro rfl
      exact stepMarker_ne_some_none i hk

/-- The re-base of R109 does not move the absolute cursor back. -/
theorem closeInvocation_base_add_cur_le {v : Invocation} {s : State} (hw : v.window = s.tail ++ v.chunk)
    (htail : s.tail.length ≤ s.total) :
    s.base + s.cur ≤ (closeInvocation v s).base + (closeInvocation v s).cur := by
  simp only [base_eq, closeInvocation_total, closeInvocation_tail, closeInvocation_cur, lastN_length, hw,
    List.length_append]
  omega

end Sys2Proof.Machine

open Sys2Proof Sys2Proof.Machine

/-- Settles O2: the fields of `State.reset` read off one by one. -/
theorem resetStateIsTheResetValue : Obligations.ResetStateIsTheResetValue := by
  unfold Obligations.ResetStateIsTheResetValue
  exact ⟨rfl, rfl, rfl, rfl, rfl, rfl, rfl, rfl, rfl, rfl, rfl, rfl⟩

/-- Settles O3: a built instance is between commands and not started, so it refuses PROCESS and takes RESET. -/
theorem buildNeedsWellFormedThenReset : Obligations.BuildNeedsWellFormedThenReset := by
  unfold Obligations.BuildNeedsWellFormedThenReset
  refine ⟨fun g p hg => build_of_wf_false hg p, fun g p hg => ⟨_, build_of_wf hg p, fun new => ?_, ?_⟩⟩
  · exact exec_process_of_not_started rfl rfl new
  · exact exec_reset_of_idle rfl

/-- Settles O18, by the five ways a step answers a next state: a decoder step appends at the absolute cursor and moves beyond it, the
others leave the trace and do not move the absolute cursor back, and RESET empties the trace. -/
theorem stepKeepsTheTraceOrdered : Obligations.StepKeepsTheTraceOrdered := by
  unfold Obligations.StepKeepsTheTraceOrdered
  intro s t hinv htrace hstep
  obtain ⟨-, hmem, -, htail, -⟩ := hinv
  rcases step_eq_next hstep with ⟨v, i, hv, hd, -, rfl⟩ | ⟨v, hv, -, rfl⟩ | ⟨-, -, rfl⟩ | ⟨rest, -, -, hreset⟩ |
    ⟨new, rest, -, -, hopen⟩
  · -- a decoder step
    exact traceInv_afterStep hv (stepCondition_of_decodeAt hd).1 hmem htrace
  · -- the end of an invocation
    obtain ⟨-, -, -, hw, -⟩ := (memory_wf_busy hv).1 hmem
    exact traceInv_of_trace_eq (s := s) rfl (closeInvocation_base_add_cur_le hw (by omega)) htrace
  · -- idle
    exact htrace
  · -- RESET
    obtain ⟨-, rfl⟩ := execReset_eq_next.1 hreset
    simp [State.TraceInv]
  · -- the opening of PROCESS
    obtain ⟨-, -, -, -, rfl⟩ := openInvocation_eq_next.1 hopen
    exact traceInv_of_trace_eq (s := s) rfl le_rfl htrace

end

section
/-! The obligations of the state: the invariant of R24 and R25, the frame of a decoder step, and the tail as the end of the stream. -/

namespace Sys2Proof.Machine

/-! ### A decoder step, part by part -/

/-- The annotation buffer after a decoder step: SKIP, which has no marker, leaves it alone (R90, R110). -/
def stepAnn (i : Instr) (v : Invocation) (s : State) : List Marker :=
  match stepMarker i with
  | none => v.ann
  | some m => annAfter s.cur m v

/-- The reports after a decoder step: EOF alone adds one (R91). -/
def stepReports (i : Instr) (v : Invocation) (s : State) : List Report :=
  if i = .eof then v.reps ++ [finalize s.fb] else v.reps

theorem afterStep_inv (i : Instr) (v : Invocation) (s : State) :
    (afterStep i v s).inv = some { v with ann := stepAnn i v s, reps := stepReports i v s } := rfl

theorem stepReports_of_ne_eof {i : Instr} (hi : i ≠ .eof) (v : Invocation) (s : State) :
    stepReports i v s = v.reps := if_neg hi

theorem stepAnn_skip (v : Invocation) (s : State) : stepAnn .skip v s = v.ann := rfl

theorem stepAnn_getElem?_ne (i : Instr) {v : Invocation} {s : State} {j : Nat} (h : j + v.tailLen0 ≠ s.cur) :
    (stepAnn i v s)[j]? = v.ann[j]? := by
  unfold stepAnn
  cases stepMarker i with
  | none => rfl
  | some m => exact annAfter_getElem?_ne s.cur m v j h

/-- A step's Condition names the decoder state of its row (R53). -/
theorem st_of_stepCondition {i : Instr} {s : State} {v : Invocation} (h : stepCondition i s v) : s.st = modeOf i := by
  cases i with
  | reset => exact h.elim
  | process new => exact h.elim
  | _ => exact h.1

/-- A Condition reads the window, the cursor, the decoder state and how many symbols the frame buffer holds, never which (R23). -/
theorem stepCondition_congr {i : Instr} {s s' : State} {v v' : Invocation} (h : stepCondition i s v) (hcfg : s'.cfg = s.cfg)
    (hst : s'.st = s.st) (hcur : s'.cur = s.cur) (hfb : s'.fb.length = s.fb.length) (hw : v'.window = v.window) :
    stepCondition i s' v' := by
  cases i <;> simp only [stepCondition, hcfg, hst, hcur, hfb, hw] at h ⊢ <;> exact h

theorem stepBuffer_length_congr (i : Instr) {fb fb' : List Code} (h : fb'.length = fb.length) :
    (stepBuffer i fb').length = (stepBuffer i fb).length := by
  cases i <;> simp [stepBuffer, h]

/-! ### The invariants -/

theorem inv_ofConfig {g : Config} (hg : g.wf = true) : (State.ofConfig g).Inv :=
  ⟨hg, memory_wf_ofConfig g, fun _ => rfl, rfl, le_rfl⟩

theorem traceInv_ofConfig (g : Config) : (State.ofConfig g).TraceInv := by
  simp [State.TraceInv, State.ofConfig]

/-- A run of decoder steps keeps the invariant: the cursor never leaves the window (R25, R99). -/
theorem Decodes.keeps_inv {n : Nat} {s t : State} (h : Decodes n s t) {v : Invocation} (hv : s.inv = some v) (hinv : s.Inv) :
    t.Inv := by
  obtain ⟨hcfg, hmem, hseek, htail, hcur⟩ := hinv
  obtain ⟨fcfg, -, ftail, ftotal, -, -, -, fcur, w, hw, -, -, fwindow, -⟩ := h.frame hv
  simp only [State.windowLen, hv] at hcur
  refine ⟨fcfg ▸ hcfg, h.memory_wf hmem, h.seeking_empty hseek, by rw [ftail, ftotal, htail], ?_⟩
  simp only [State.windowLen, hw, fwindow]
  exact fcur hcur

/-- The tail save and the re-base take the tail and the cursor from one place to the other together (R108, R109). -/
theorem inv_closeInvocation {v : Invocation} {s : State} (hv : s.inv = some v) (hinv : s.Inv) : (closeInvocation v s).Inv := by
  obtain ⟨hcfg, hmem, hseek, htail, hcur⟩ := hinv
  obtain ⟨-, -, -, hw, -⟩ := (memory_wf_busy hv).1 hmem
  simp only [State.windowLen, hv] at hcur
  have hlen : v.window.length = s.tail.length + v.chunk.length := by rw [hw, List.length_append]
  refine ⟨hcfg, memory_wf_closeInvocation hv hmem, hseek, ?_, ?_⟩
  · simp only [closeInvocation_tail, closeInvocation_total, lastN_length, tailMax]
    omega
  · simp only [State.windowLen, closeInvocation_inv, closeInvocation_cur, closeInvocation_tail, lastN_length, tailMax]
    omega

/-- The stitch keeps the cursor on the same sample of a longer window (R104). -/
theorem inv_openInvocation {new : List Sample} {s t : State} (ho : openInvocation new s = .next t) (hinv : s.Inv) : t.Inv := by
  obtain ⟨hcfg, hmem, hseek, htail, hcur⟩ := hinv
  have hmem' := memory_wf_openInvocation ho hmem
  obtain ⟨hidle, -, -, -, rfl⟩ := openInvocation_eq_next.1 ho
  simp only [State.windowLen, hidle] at hcur
  refine ⟨hcfg, hmem', hseek, htail, ?_⟩
  simp only [State.windowLen, List.length_append]
  omega

theorem inv_execReset {s t : State} (hr : exec .reset s = .next t) (hcfg : s.cfg.wf = true) : t.Inv := by
  rw [exec_reset_of_idle (execReset_eq_next.1 hr).1] at hr
  cases hr
  exact inv_ofConfig hcfg

/-! ### The stream since RESET -/

/-- The tail of R24 (b) is the tail save of the whole stream (R108). -/
theorem follows_iff {s : State} {xs : List Sample} : s.follows xs ↔ s.tail = lastN tailMax xs ∧ s.total = xs.length := Iff.rfl

theorem follows_ofConfig (g : Config) : (State.ofConfig g).follows [] := ⟨rfl, rfl⟩

theorem follows_execReset {s t : State} (h : exec .reset s = .next t) : t.follows [] := by
  obtain ⟨-, rfl⟩ := execReset_eq_next.1 h
  exact ⟨rfl, rfl⟩

/-- PROCESS extends the stream by its chunk: its decoder steps leave `tail` and `total` alone, and the tail save of the stitched
window is that of the whole stream (R104, R108). -/
theorem follows_execProcess {s t : State} {xs new : List Sample} (hs : s.follows xs) (h : exec (.process new) s = .next t) :
    t.follows (xs ++ new) := by
  obtain ⟨htail, htotal⟩ := follows_iff.1 hs
  obtain ⟨a, b, v, w, n, hopen, hv, hwindow, hchunk, -, -, -, hrun, hw, -, rfl⟩ := execProcess_run h
  obtain ⟨-, -, -, -, rfl⟩ := openInvocation_eq_next.1 hopen
  obtain ⟨-, -, -, ftotal, -, -, -, -, w', hw', fchunk, -, fwindow, -⟩ := hrun.frame hv
  obtain rfl : w = w' := Option.some.inj (hw.symm.trans hw')
  rw [follows_iff]
  constructor
  · rw [closeInvocation_tail, fwindow, hwindow, htail, lastN_append_lastN]
  · rw [closeInvocation_total, ftotal, fchunk, hchunk, htotal, List.length_append]

/-- A sequence of PROCESS commands extends the stream by its chunks, one after another. -/
theorem follows_runChunks {s t : State} {xs : List Sample} {cs : List (List Sample)} (hs : s.follows xs)
    (h : runChunks cs s = .next t) : t.follows (xs ++ cs.flatten) := by
  induction cs generalizing s xs with
  | nil => cases h; simpa using hs
  | cons c cs ih =>
    obtain ⟨u, hu, hrest⟩ := bindNext_eq_next.1 h
    rw [List.flatten_cons, ← List.append_assoc]
    exact ih (follows_execProcess hs hu) hrest

theorem tail_length_of_follows {s : State} {xs : List Sample} (h : s.follows xs) : s.tail.length = min 7 s.total := by
  obtain ⟨htail, htotal⟩ := follows_iff.1 h
  rw [htail, htotal, lastN_length]

end Sys2Proof.Machine

open Sys2Proof Sys2Proof.Machine

/-- Settles O17, by the five ways a step answers a next state. -/
theorem stepKeepsTheInvariant : Obligations.StepKeepsTheInvariant := by
  unfold Obligations.StepKeepsTheInvariant
  intro s t hinv hstep
  rcases step_eq_next hstep with ⟨v, i, hv, hd, hf, rfl⟩ | ⟨v, hv, -, rfl⟩ | ⟨-, -, rfl⟩ | ⟨rest, -, -, hreset⟩ |
    ⟨new, rest, -, -, hopen⟩
  · -- a decoder step
    exact (Decodes.step hv hd hf (.refl _)).keeps_inv hv hinv
  · -- the end of an invocation
    exact inv_closeInvocation hv hinv
  · -- idle
    exact hinv
  · -- RESET
    exact inv_execReset hreset hinv.1
  · -- the opening of PROCESS
    exact inv_openInvocation hopen hinv

/-- Settles O53: the tail save forgets nothing that a longer stitch would have kept. -/
theorem processExtendsTheStream : Obligations.ProcessExtendsTheStream := by
  unfold Obligations.ProcessExtendsTheStream
  exact ⟨fun _ _ _ _ => follows_execProcess, fun _ _ => follows_execReset⟩

/-- Settles O16, from the one state a decoder step can answer. -/
theorem decoderStepFrame : Obligations.DecoderStepFrame := by
  unfold Obligations.DecoderStepFrame
  intro i s t v hi hv hexec
  obtain ⟨v', ⟨hv', -⟩, hcond, -, rfl⟩ := (exec_decoderStep hi).1 hexec
  obtain rfl : v' = v := Option.some.inj (hv'.symm.trans hv)
  refine ⟨rfl, rfl, rfl, rfl, rfl, rfl, ?_, ?_, _, afterStep_inv i v' s, rfl, rfl, rfl, afterStep_ann_length i v' s,
    fun hne => stepReports_of_ne_eof hne v' s, ?_⟩
  · -- PREAMBLE and SKIP do not write the frame buffer
    rintro (rfl | rfl) <;> rfl
  · -- SKIP and DATA stay in the decoder state they run in
    intro hstay
    rw [st_of_stepCondition hcond]
    rcases hstay with rfl | rfl | rfl | rfl | rfl <;> rfl
  · -- the annotation changes at the cursor's own place only
    rintro j (rfl | hj)
    · rw [stepAnn_skip]
    · exact stepAnn_getElem?_ne i hj

/-- Settles O21: the other state meets the same Condition, and its next state differs only in the buffer and the reports. -/
theorem bufferContentsDoNotSteer : Obligations.BufferContentsDoNotSteer := by
  unfold Obligations.BufferContentsDoNotSteer
  intro i s t v fb' reps' hi hv hfb hexec
  obtain ⟨v', ⟨hv', hroom⟩, hcond, hfits, rfl⟩ := (exec_decoderStep hi).1 hexec
  obtain rfl : v' = v := Option.some.inj (hv'.symm.trans hv)
  have hcond' : stepCondition i { s with fb := fb', inv := some { v' with reps := reps' } } { v' with reps := reps' } :=
    stepCondition_congr hcond rfl rfl rfl hfb rfl
  exact ⟨_, _, _, (exec_decoderStep hi).2 ⟨_, ⟨rfl, hroom⟩, hcond', hfits, rfl⟩, afterStep_inv i v' s, afterStep_inv i _ _,
    stepBuffer_length_congr i hfb, rfl⟩

/-- Settles O44, by induction on the chunks: RESET begins the empty stream and each PROCESS extends it. -/
theorem tailIsTheEndOfTheStream : Obligations.TailIsTheEndOfTheStream := by
  unfold Obligations.TailIsTheEndOfTheStream
  intro g cs t _ hrun
  have hfollows : t.follows cs.flatten := follows_runChunks (follows_ofConfig g) hrun
  exact ⟨hfollows.1, hfollows.2, tail_length_of_follows hfollows⟩

/-- Settles O1: RESET leaves the state of R26 for the parameters the block was built with. -/
theorem resetSetsEveryElement : Obligations.ResetSetsEveryElement := by
  unfold Obligations.ResetSetsEveryElement
  intro s hidle
  exact ⟨_, exec_reset_of_idle hidle, rfl, rfl, rfl, rfl⟩

/-- Settles O19; the reset state is that of the default parameters, which are well formed. -/
theorem resetSatisfiesTheInvariants : Obligations.ResetSatisfiesTheInvariants := by
  unfold Obligations.ResetSatisfiesTheInvariants
  have hdefault : Config.default.wf = true := by decide
  exact ⟨inv_ofConfig hdefault, traceInv_ofConfig Config.default, fun g hg => ⟨inv_ofConfig hg, traceInv_ofConfig g⟩⟩

end

section
/-! SUPPORT. The base-4 digits of a packed run of symbols, and the statement about them (R35). -/

namespace Sys2Proof.Machine

/-- A shift by whole symbols drops them from the front of the run (R35). -/
theorem pack_shiftRight (cs : List Code) (j : Nat) : pack cs >>> (2 * j) = pack (cs.drop j) := by
  rw [pack_drop, Nat.shiftRight_eq_div_pow, Nat.pow_mul]

/-- The lowest digit of a packed run is its first symbol. -/
theorem pack_cons_mod_four (c : Code) (cs : List Code) : pack (c :: cs) % 4 = c.toNat := by
  rw [pack_cons, Nat.add_mul_mod_self_left, Nat.mod_eq_of_lt c.isLt]

end Sys2Proof.Machine

open Sys2Proof Sys2Proof.Machine

/-- Settles O31: the shift brings symbol `j` to the front of the run, where it is the lowest digit. -/
theorem symbolsPackLeastSignificantFirst : Obligations.SymbolsPackLeastSignificantFirst := by
  unfold Obligations.SymbolsPackLeastSignificantFirst
  intro cs
  constructor
  · intro j hj
    rw [pack_shiftRight, List.drop_eq_getElem_cons hj, pack_cons_mod_four]
  · rw [Nat.pow_mul]
    exact pack_lt cs

end

section
/-! The obligations of decoding: encoder and decoder agree, and each decoder step is its row of the table. -/

namespace Sys2Proof

/-! ### Where patterns match -/

/-- A match reads the window sample by sample (R64). -/
theorem getElem?_of_matchAt {W : List Sample} {off i : Nat} {pat : List Sample} (h : matchAt W off pat = true)
    (hi : i < pat.length) : W[off + i]? = pat[i]? := by
  obtain ⟨-, htake⟩ := matchAt_iff_take.1 h
  rw [← List.getElem?_drop, ← List.getElem?_take_of_lt hi, htake]

/-- A window matches no pattern that lacks one of the samples compared with it (R46). -/
theorem matchAt_eq_false_of_notMem {W : List Sample} {off i : Nat} {pat : List Sample} {x : Sample}
    (hx : W[off + i]? = some x) (hi : i < pat.length) (hmem : x ∉ pat) : matchAt W off pat = false := by
  refine Bool.eq_false_iff.2 fun h => hmem (List.mem_of_getElem? (i := i) ?_)
  rw [← getElem?_of_matchAt h hi, hx]

/-- Where a run of samples stands, a pattern no longer than it matches exactly when it begins the run. -/
theorem matchAt_append_iff {before w after pat : List Sample} (hl : pat.length ≤ w.length) :
    matchAt (before ++ w ++ after) before.length pat = true ↔ w.take pat.length = pat := by
  rw [matchAt_iff_take, List.append_assoc, List.drop_left, List.take_append_of_le_length hl]
  simp only [List.length_append, and_iff_right_iff_imp]
  omega

theorem matchAt_append_eq_false {before w after pat : List Sample} (hl : pat.length ≤ w.length)
    (h : w.take pat.length ≠ pat) : matchAt (before ++ w ++ after) before.length pat = false :=
  Bool.eq_false_iff.2 fun hm => h ((matchAt_append_iff hl).1 hm)

/-- Where a Data pattern matches, its code is the answer, since no other Data pattern can match there (R65, R66). -/
theorem classify_of_matchAt {g : Config} (hg : g.wf = true) {W : List Sample} {off : Nat} {k : Code}
    (h : matchAt W off (g.catalog.data k) = true) : classify g W off = some k := by
  have parts := g.wf_parts hg
  cases hc : classify g W off with
  | none => simp [classify_none.1 hc k] at h
  | some j =>
    have hjk := matchAt_unique (by rw [parts.data_length, parts.data_length]) (classify_some hc) h
    rw [parts.data_injective j k hjk]

/-- The EOF pattern of R8 (e) begins no Data pattern. -/
theorem data_take_ne_eof {c : Catalog} (h : c.eofApart = true) (k : Code) : (c.data k).take 4 ≠ c.eof := by
  simp only [Catalog.eofApart, eofLen, Bool.and_eq_true, bne_iff_ne, ne_eq] at h
  obtain ⟨⟨⟨h0, h1⟩, h2⟩, h3⟩ := h
  rcases code_cases k with rfl | rfl | rfl | rfl
  exacts [Ne.symm h0, Ne.symm h1, Ne.symm h2, Ne.symm h3]

/-! ### What the decoder answers, branch by branch (R88) -/

section Branches

variable {g : Config} {n : Nat} {W : List Sample} {c : Nat}

theorem decode_preamble (hl : c + 8 ≤ W.length) (h : matchAt W c g.catalog.pre = true) :
    decode g .seekingPreamble n W c = .ok .preamble := by
  simp [decode, hl, h]

theorem decode_skip (hl : c + 8 ≤ W.length) (h : matchAt W c g.catalog.pre = false) :
    decode g .seekingPreamble n W c = .ok .skip := by
  simp [decode, hl, h]

theorem decode_eof (hl : c + 8 ≤ W.length) (h : matchAt W c g.catalog.eof = true) :
    decode g .receivingData n W c = .ok .eof := by
  simp [decode, hl, h]

theorem decode_data (hl : c + 8 ≤ W.length) (he : matchAt W c g.catalog.eof = false) {k : Code}
    (hk : classify g W c = some k) (hn : n < g.frameCap) : decode g .receivingData n W c = .ok (dataInstr k) := by
  simp [decode, hl, he, hk, hn]

theorem decode_corruptOvf (hl : c + 8 ≤ W.length) (he : matchAt W c g.catalog.eof = false) {k : Code}
    (hk : classify g W c = some k) (hn : ¬ n < g.frameCap) : decode g .receivingData n W c = .ok .corruptOvf := by
  simp [decode, hl, he, hk, hn]

theorem decode_corrupt (hl : c + 8 ≤ W.length) (he : matchAt W c g.catalog.eof = false) (hk : classify g W c = none) :
    decode g .receivingData n W c = .ok .corrupt := by
  simp [decode, hl, he, hk]

end Branches

/-! ### Encodings in a window -/

theorem encode_dataInstr (g : Config) (k : Code) : encode g (dataInstr k) = some (g.catalog.data k) := by
  rcases code_cases k with rfl | rfl | rfl | rfl <;> rfl

/-- A Data pattern standing at the cursor is read as Data and not as EOF, under R8 (e). -/
theorem data_at_append {g : Config} (hg : g.wf = true) (hapart : g.catalog.eofApart = true) (k : Code)
    (before after : List Sample) :
    matchAt (before ++ g.catalog.data k ++ after) before.length g.catalog.eof = false ∧
    classify g (before ++ g.catalog.data k ++ after) before.length = some k := by
  have parts := g.wf_parts hg
  constructor
  · refine matchAt_append_eq_false (by rw [parts.eof_length, parts.data_length]; decide) ?_
    rw [parts.eof_length]
    exact data_take_ne_eof hapart k
  · rw [List.append_assoc]
    exact classify_of_matchAt hg (matchAt_append_self before _ after)

theorem skipWindow_length (g : Config) : (skipWindow g).length = 8 := by
  unfold skipWindow; split <;> rfl

theorem corruptWindow_length (g : Config) : (corruptWindow g).length = 8 := by
  unfold corruptWindow; split <;> rfl

/-- The encoder's SKIP window is not the Preamble (log entry 11). -/
theorem skipWindow_ne_pre {g : Config} (hg : g.wf = true) : skipWindow g ≠ g.catalog.pre := by
  unfold skipWindow
  split
  case isTrue hpre => simpa [hpre] using (g.wf_parts hg).hi_ne_lo.symm
  case isFalse hpre => exact Ne.symm hpre

/-- The encoder's CORRUPT window does not begin with EOF (log entry 11). -/
theorem corruptWindow_take_ne_eof {g : Config} (hg : g.wf = true) : (corruptWindow g).take 4 ≠ g.catalog.eof := by
  unfold corruptWindow
  split
  case isTrue heof => simpa [heof] using (g.wf_parts hg).hi_ne_lo
  case isFalse heof => exact Ne.symm heof

/-- The encoder's CORRUPT window is no Data pattern: it holds eight low samples or none, and a Data pattern one (R8 (c)). -/
theorem corruptWindow_ne_data {g : Config} (hg : g.wf = true) (k : Code) : corruptWindow g ≠ g.catalog.data k := by
  have parts := g.wf_parts hg
  intro h
  have hcount := parts.data_count k
  rw [← h] at hcount
  unfold corruptWindow at hcount
  split at hcount
  · simp [parts.hi_ne_lo] at hcount
  · simp at hcount

theorem classify_corruptWindow {g : Config} (hg : g.wf = true) (before after : List Sample) :
    classify g (before ++ corruptWindow g ++ after) before.length = none := by
  refine classify_none.2 fun k => ?_
  have hlen : (g.catalog.data k).length = (corruptWindow g).length := by
    rw [(g.wf_parts hg).data_length, corruptWindow_length]
  refine matchAt_append_eq_false hlen.le ?_
  rw [hlen, List.take_length]
  exact corruptWindow_ne_data hg k

end Sys2Proof

open Sys2Proof Sys2Proof.Machine

/-- Settles O26, by the branch of the decoder each encoding leads to. -/
theorem decodeOfEncode : Obligations.DecodeOfEncode := by
  unfold Obligations.DecodeOfEncode
  intro g i w before after n hg hapart henc h8 hfull hroom
  have parts := g.wf_parts hg
  have hl : before.length + 8 ≤ (before ++ w ++ after).length := by
    simp only [List.length_append]; omega
  have hself : matchAt (before ++ w ++ after) before.length w = true := by
    rw [List.append_assoc]
    exact matchAt_append_self before w after
  have hdata : ∀ k, w = g.catalog.data k → n < g.frameCap →
      decode g .receivingData n (before ++ w ++ after) before.length = .ok (dataInstr k) := by
    rintro k rfl hn
    obtain ⟨heof, hclass⟩ := data_at_append hg hapart k before after
    exact decode_data hl heof hclass hn
  cases i with
  | preamble => cases henc; exact decode_preamble hl hself
  | skip =>
    cases henc
    have hlen : g.catalog.pre.length = (skipWindow g).length := by rw [parts.pre_length, skipWindow_length]
    refine decode_skip hl (matchAt_append_eq_false hlen.le ?_)
    rw [hlen, List.take_length]
    exact skipWindow_ne_pre hg
  | eof => cases henc; exact decode_eof hl hself
  | data00 => cases henc; exact hdata 0#2 rfl (hroom (by simp))
  | data01 => cases henc; exact hdata 1#2 rfl (hroom (by simp))
  | data10 => cases henc; exact hdata 2#2 rfl (hroom (by simp))
  | data11 => cases henc; exact hdata 3#2 rfl (hroom (by simp))
  | corruptOvf =>
    cases henc
    obtain ⟨heof, hclass⟩ := data_at_append hg hapart 0#2 before after
    exact decode_corruptOvf hl heof hclass (hfull rfl)
  | corrupt =>
    cases henc
    refine decode_corrupt hl (matchAt_append_eq_false ?_ ?_) (classify_corruptWindow hg before after)
    · rw [parts.eof_length, corruptWindow_length]; decide
    · rw [parts.eof_length]; exact corruptWindow_take_ne_eof hg
  | reset => cases henc
  | process new => cases henc

/-- Settles O15, from the one state a decoder step can answer. -/
theorem stepTableRow : Obligations.StepTableRow := by
  unfold Obligations.StepTableRow
  intro i s t v hi hv hexec
  obtain ⟨v', ⟨hv', hroom⟩, hcond, -, rfl⟩ := (exec_decoderStep hi).1 hexec
  obtain rfl : v' = v := Option.some.inj (hv'.symm.trans hv)
  have hcur : s.cur + stepAdvance i ≤ v'.window.length := by
    have := stepAdvance_le i
    omega
  exact ⟨st_of_stepCondition hcond, rfl, rfl, hcur, rfl, rfl⟩

/-- Settles O25: every pattern of a well-formed catalog consists of the two levels alone (R8), so the foreign sample rules out each
pattern that reaches it. -/
theorem foreignSampleMatchesNothing : Obligations.ForeignSampleMatchesNothing := by
  unfold Obligations.ForeignSampleMatchesNothing
  intro g W c i n x hg hl hi hx hhi hlo
  have parts := g.wf_parts hg
  have hforeign : ∀ pat : List Sample, (∀ y ∈ pat, y = g.sHi ∨ y = g.sLo) → i < pat.length → matchAt W c pat = false :=
    fun pat hpat hlen => matchAt_eq_false_of_notMem hx hlen fun hmem => (hpat x hmem).elim hhi hlo
  have hclass : classify g W c = none :=
    classify_none.2 fun k => hforeign _ (parts.data_mem k) (by rw [parts.data_length]; exact hi)
  refine ⟨decode_skip hl (hforeign _ parts.pre_mem (by rw [parts.pre_length]; exact hi)), fun he => decode_corrupt hl he hclass,
    fun hi4 => decode_corrupt hl (hforeign _ parts.eof_mem (by rw [parts.eof_length]; exact hi4)) hclass⟩

/-- Settles O27, by the six answers of the decoder: the three that name a pattern do so because it matches. -/
theorem decodedPatternStandsInTheWindow : Obligations.DecodedPatternStandsInTheWindow := by
  unfold Obligations.DecodedPatternStandsInTheWindow
  intro g st n W c i w hdec hmem henc
  obtain ⟨-, hcases⟩ := decode_eq_ok hdec
  rcases hcases with ⟨rfl, hm, rfl⟩ | ⟨-, -, rfl⟩ | ⟨rfl, hm, rfl⟩ | ⟨rfl, -, k, hk, -, rfl⟩ | ⟨-, -, -, -, rfl⟩ |
    ⟨-, -, -, rfl⟩
  · -- PREAMBLE
    cases henc
    exact ⟨rfl, (matchAt_iff_take.1 hm).2⟩
  · -- SKIP is no pattern step
    simp at hmem
  · -- EOF
    cases henc
    exact ⟨rfl, (matchAt_iff_take.1 hm).2⟩
  · -- the Data step of the code that `classify` answers
    rw [encode_dataInstr] at henc
    cases henc
    refine ⟨?_, (matchAt_iff_take.1 (classify_some hk)).2⟩
    rcases code_cases k with rfl | rfl | rfl | rfl <;> rfl
  · -- CORRUPT.OVF is no pattern step
    simp at hmem
  · -- CORRUPT is no pattern step
    simp at hmem

/-- Settles O28, by counting the 256 windows. -/
theorem defaultCatalogWindowCounts : Obligations.DefaultCatalogWindowCounts := by
  unfold Obligations.DefaultCatalogWindowCounts
  decide +kernel

/-- Settles O29, by decoding each of the nine words. -/
theorem defaultWordsDecode : Obligations.DefaultWordsDecode := by
  unfold Obligations.DefaultWordsDecode
  decide

end

section
/-! The round trip of a request: PROCESS as a run on absolute positions, the run over a frame, and the report of a request. -/

namespace Sys2Proof.Machine

/-- A match at a place of the rest is a match of the whole, as far on (R39). -/
theorem matchAt_of_drop {W : List Sample} {m off : Nat} {pat : List Sample} (h : m + off ≤ W.length) :
    matchAt (W.drop m) off pat = matchAt W (m + off) pat := by
  rw [matchAt_drop h, ← List.drop_drop, matchAt_drop (by rw [List.length_drop]; omega)]

/-! ### PROCESS as a run on absolute positions -/

theorem finishInvocation_total (s : State) : ∃ t, finishInvocation s = .next t := by
  unfold finishInvocation
  cases s.inv with
  | none => exact ⟨_, rfl⟩
  | some v => exact ⟨_, rfl⟩

/-- PROCESS answers wherever the host may issue it (R101, R136). -/
theorem execProcess_total {s : State} {new : List Sample} (hinv : s.Inv) (hidle : s.inv = none) (hstarted : s.started = true)
    (hwf : (Instr.process new).wf s.cfg = true) : ∃ t, exec (.process new) s = .next t := by
  obtain ⟨-, hmem, -⟩ := hinv
  obtain ⟨hlen, hfit⟩ : new.length ≤ s.cfg.chunkMax ∧ samplesFit s.cfg new = true := by simpa [Instr.wf] using hwf
  have hopen := openInvocation_eq_next.2 ⟨hidle, hstarted, hlen, hfit, rfl⟩
  obtain ⟨b, hloop⟩ := processLoop_total (fuel := s.tail.length + new.length) rfl (memory_wf_openInvocation hopen hmem)
  obtain ⟨t, ht⟩ := finishInvocation_total b
  exact ⟨t, execProcess_eq_next.2 ⟨_, b, hopen, hloop, ht⟩⟩

/-- PROCESS, whole, is the run over the samples from the cursor on; the tail save and the re-base lose nothing of what is left and
do not move the absolute cursor (R108, R109). -/
theorem execProcess_absRun {s t : State} {new : List Sample} (hinv : s.Inv) (h : exec (.process new) s = .next t)
    (pre : List Report) :
    ∃ d, t.delivered = s.delivered ++ [d] ∧
      AbsRun s.cfg ((s.tail ++ new).drop s.cur) (s.abs s.base pre) (t.tail.drop t.cur) (t.abs t.base (pre ++ d.reps)) := by
  obtain ⟨-, -, -, htail, hcur⟩ := hinv
  obtain ⟨a, b, v, w, n, hopen, hv, hwindow, hchunk, hprefix, -, hreps, hrun, hw, hend, rfl⟩ := execProcess_run h
  obtain ⟨hidle, -, -, -, rfl⟩ := openInvocation_eq_next.1 hopen
  simp only [State.windowLen, hidle] at hcur
  have hlen : v.window.length = s.tail.length + new.length := by rw [hwindow, List.length_append]
  have hcurv : s.cur ≤ v.window.length := by omega
  obtain ⟨-, -, -, ftotal, -, fdelivered, -, -, w', hw', fchunk, -, fwindow, -⟩ := hrun.frame hv
  obtain rfl : w = w' := Option.some.inj (hw.symm.trans hw')
  have habs := hrun.absRun hv hw hcurv hend pre
  have hrest : (closeInvocation w b).tail.drop (closeInvocation w b).cur = v.window.drop b.cur := by
    rw [closeInvocation_tail, closeInvocation_cur, fwindow, lastN, List.drop_drop]
    congr 1
    simp only [tailMax]
    omega
  have hpos : (closeInvocation w b).base + (closeInvocation w b).cur = s.total - v.tailLen0 + b.cur := by
    simp only [base_eq, closeInvocation_total, closeInvocation_tail, closeInvocation_cur, lastN_length, tailMax, fwindow, fchunk,
      hchunk, ftotal, hprefix]
    omega
  have hafter : (closeInvocation w b).abs (closeInvocation w b).base (pre ++ w.reps) =
      b.abs (s.total - v.tailLen0) (pre ++ w.reps) := by
    rw [State.abs, hpos]
    rfl
  refine ⟨{ ann := w.ann, reps := w.reps }, by rw [closeInvocation_delivered, fdelivered], ?_⟩
  rw [hrest, hafter, ← hwindow]
  simpa only [State.abs, hreps, hprefix, base_eq, List.append_nil] using habs

/-! ### The run over a lead-in and over a frame -/

section Run

variable {g : Config} {r r' : List Sample} {x x' : Abs}

theorem Abs.after_skip (hst : x.st = .seekingPreamble) : x.after .skip = { x with pos := x.pos + 1 } := by
  simp [Abs.after, stepNextState, stepBuffer, stepAdvance, stepMarker, hst]

/-- The decoder, seeking, passes over samples at which no Preamble begins by SKIPs alone (R90). -/
theorem AbsRun.skips {m : Nat} (hst : x.st = .seekingPreamble) (hl : m + 7 ≤ r.length)
    (hquiet : ∀ off, off < m → matchAt r off g.catalog.pre = false)
    (hrun : AbsRun g (r.drop m) { x with pos := x.pos + m } r' x') : AbsRun g r x r' x' := by
  induction m generalizing r x with
  | zero => exact hrun
  | succ m ih =>
    have hdec : decode g x.st x.fb.length r 0 = .ok .skip := by
      rw [hst]
      exact decode_skip (by omega) (hquiet 0 (by omega))
    refine .step (i := .skip) (by omega) hdec ?_
    rw [Abs.after_skip hst, stepAdvance]
    refine ih hst (by simp only [List.length_drop]; omega) (fun off hoff => ?_) ?_
    · rw [matchAt_of_drop (by omega)]
      exact hquiet (1 + off) (by omega)
    · rw [List.drop_drop, Nat.add_comm 1 m]
      simpa [Nat.add_assoc, Nat.add_comm 1 m] using hrun

/-- Where an instruction's encoding stands under the cursor, the run begins with that instruction. -/
theorem AbsRun.of_encode {i : Instr} {w : List Sample} (hg : g.wf = true) (hapart : g.catalog.eofApart = true)
    (henc : encode g i = some w) (hadvance : w.length = stepAdvance i) (hst : x.st = modeOf i) (h8 : 8 ≤ w.length + r.length)
    (hne : i ≠ .corruptOvf) (hroom : i ∈ [Instr.data00, .data01, .data10, .data11] → x.fb.length < g.frameCap)
    (hrun : AbsRun g r (x.after i) r' x') : AbsRun g (w ++ r) x r' x' := by
  have hdec := decodeOfEncode g i w [] r x.fb.length hg hapart henc h8 (fun he => absurd he hne) hroom
  refine .step (i := i) (by rw [List.length_append]; exact h8) (hst ▸ hdec) ?_
  rw [← hadvance, List.drop_left]
  exact hrun

/-! ### Data symbols -/

@[simp] theorem modeOf_dataInstr (k : Code) : modeOf (dataInstr k) = .receivingData := by
  rcases code_cases k with rfl | rfl | rfl | rfl <;> rfl

@[simp] theorem stepAdvance_dataInstr (k : Code) : stepAdvance (dataInstr k) = 8 := by
  rcases code_cases k with rfl | rfl | rfl | rfl <;> rfl

@[simp] theorem stepNextState_dataInstr (k : Code) : stepNextState (dataInstr k) = .receivingData := by
  rcases code_cases k with rfl | rfl | rfl | rfl <;> rfl

@[simp] theorem stepBuffer_dataInstr (k : Code) (fb : List Code) : stepBuffer (dataInstr k) fb = fb ++ [k] := by
  rcases code_cases k with rfl | rfl | rfl | rfl <;> rfl

theorem dataInstr_ne_eof (k : Code) : dataInstr k ≠ .eof := by
  rcases code_cases k with rfl | rfl | rfl | rfl <;> simp

theorem dataInstr_ne_corruptOvf (k : Code) : dataInstr k ≠ .corruptOvf := by
  rcases code_cases k with rfl | rfl | rfl | rfl <;> simp

/-- The core after the Data steps of a run of symbols (R92). -/
def Abs.afterSymbols (x : Abs) (ks : List Code) : Abs := ks.foldl (fun y k => y.after (dataInstr k)) x

@[simp] theorem Abs.afterSymbols_nil (x : Abs) : x.afterSymbols [] = x := rfl

@[simp] theorem Abs.afterSymbols_cons (x : Abs) (k : Code) (ks : List Code) :
    x.afterSymbols (k :: ks) = (x.after (dataInstr k)).afterSymbols ks := rfl

theorem Abs.afterSymbols_st (ks : List Code) (hst : x.st = .receivingData) : (x.afterSymbols ks).st = .receivingData := by
  induction ks generalizing x with
  | nil => exact hst
  | cons k ks ih => exact ih (stepNextState_dataInstr k)

theorem Abs.afterSymbols_fb (x : Abs) (ks : List Code) : (x.afterSymbols ks).fb = x.fb ++ ks := by
  induction ks generalizing x with
  | nil => simp
  | cons k ks ih => simp [ih, Abs.after]

theorem Abs.afterSymbols_reps (x : Abs) (ks : List Code) : (x.afterSymbols ks).reps = x.reps := by
  induction ks generalizing x with
  | nil => rfl
  | cons k ks ih => simp [ih, Abs.after, dataInstr_ne_eof]

/-- A run of symbols for which the buffer has room is taken by Data steps, one each (R92). -/
theorem AbsRun.symbols {ks : List Code} (hg : g.wf = true) (hapart : g.catalog.eofApart = true) (hst : x.st = .receivingData)
    (hcap : x.fb.length + ks.length ≤ g.frameCap) (hrun : AbsRun g r (x.afterSymbols ks) r' x') :
    AbsRun g (symbolSamples g ks ++ r) x r' x' := by
  induction ks generalizing x with
  | nil => exact hrun
  | cons k ks ih =>
    have hlen := (g.wf_parts hg).data_length k
    rw [List.length_cons] at hcap
    rw [symbolSamples, List.flatMap_cons, List.append_assoc]
    refine .of_encode hg hapart (encode_dataInstr g k) (by rw [hlen, stepAdvance_dataInstr]) (by rw [hst, modeOf_dataInstr])
      (by omega) (dataInstr_ne_corruptOvf k) (fun _ => by omega) (ih (stepNextState_dataInstr k) ?_ hrun)
    simp only [Abs.after, stepBuffer_dataInstr, List.length_append, List.length_singleton]
    omega

/-! ### A frame -/

/-- The core after a frame of the symbols `ks`: a PREAMBLE, their Data steps and an EOF (R61). -/
def Abs.afterFrame (x : Abs) (ks : List Code) : Abs := ((x.after .preamble).afterSymbols ks).after .eof

/-- A frame adds the report of its symbols (R83, R91). -/
theorem Abs.afterFrame_reps (x : Abs) (ks : List Code) : (x.afterFrame ks).reps = x.reps ++ [finalize (x.fb ++ ks)] := by
  have hreps := (x.after .preamble).afterSymbols_reps ks
  have hfb := (x.after .preamble).afterSymbols_fb ks
  simp only [Abs.afterFrame, Abs.after, if_true] at hreps hfb ⊢
  rw [hreps, hfb]
  rfl

theorem eight_le_frameOfSymbols_length (hg : g.wf = true) (ks : List Code) : 8 ≤ (frameOfSymbols g ks).length := by
  rw [frameOfSymbols, List.append_assoc, List.length_append, (g.wf_parts hg).pre_length]
  exact Nat.le_add_right 8 _

/-- A frame within the capacity, with the look-ahead its EOF needs (R106), is decoded whole. -/
theorem AbsRun.frame {ks : List Code} (hg : g.wf = true) (hapart : g.catalog.eofApart = true) (hst : x.st = .seekingPreamble)
    (hcap : x.fb.length + ks.length ≤ g.frameCap) (hr : 4 ≤ r.length) (hrun : AbsRun g r (x.afterFrame ks) r' x') :
    AbsRun g (frameOfSymbols g ks ++ r) x r' x' := by
  have parts := g.wf_parts hg
  have heof : AbsRun g (g.catalog.eof ++ r) ((x.after .preamble).afterSymbols ks) r' x' :=
    .of_encode (i := .eof) hg hapart rfl parts.eof_length (Abs.afterSymbols_st ks rfl) (by rw [parts.eof_length]; omega)
      nofun (by simp) hrun
  have hsymbols : AbsRun g (symbolSamples g ks ++ (g.catalog.eof ++ r)) (x.after .preamble) r' x' :=
    .symbols hg hapart rfl hcap heof
  rw [frameOfSymbols, List.append_assoc, List.append_assoc]
  exact .of_encode (i := .preamble) hg hapart rfl parts.pre_length hst (by rw [parts.pre_length]; omega) nofun (by simp) hsymbols

end Run

/-- After a lead-in in which no Preamble begins, PROCESS does what the run over the rest of its chunk does, from the core as it was,
the cursor on the rest's first sample. -/
theorem execProcess_of_absRun_after_lead {s : State} {lead rest r' : List Sample} {x' : Abs} (hinv : s.Inv) (hidle : s.inv = none)
    (hstarted : s.started = true) (hst : s.st = .seekingPreamble) (hwf : (Instr.process (lead ++ rest)).wf s.cfg = true)
    (hquiet : s.quietUntil (s.tail ++ (lead ++ rest)) (s.tail.length + lead.length)) (hrest : 7 ≤ rest.length)
    (hrun : AbsRun s.cfg rest { s.abs s.base [] with pos := s.total + lead.length } r' x') :
    ∃ t d, exec (.process (lead ++ rest)) s = .next t ∧ t.delivered = s.delivered ++ [d] ∧ t.tail.drop t.cur = r' ∧
      t.abs t.base d.reps = x' := by
  obtain ⟨t, ht⟩ := execProcess_total hinv hidle hstarted hwf
  obtain ⟨d, hdelivered, habs⟩ := execProcess_absRun hinv ht []
  obtain ⟨-, -, -, htail, hcur⟩ := hinv
  simp only [State.windowLen, hidle] at hcur
  have hlen : (s.tail ++ (lead ++ rest)).length = s.tail.length + lead.length + rest.length := by
    simp only [List.length_append, Nat.add_assoc]
  -- the rest begins where the SKIPs end
  have hdrop : ((s.tail ++ (lead ++ rest)).drop s.cur).drop (s.tail.length + lead.length - s.cur) = rest := by
    have hend : s.cur + (s.tail.length + lead.length - s.cur) = (s.tail ++ lead).length := by
      rw [List.length_append]
      omega
    rw [List.drop_drop, hend, ← List.append_assoc, List.drop_left]
  have hpos : s.base + s.cur + (s.tail.length + lead.length - s.cur) = s.total + lead.length := by
    rw [base_eq]; omega
  have hwhole : AbsRun s.cfg ((s.tail ++ (lead ++ rest)).drop s.cur) (s.abs s.base []) r' x' := by
    refine .skips (m := s.tail.length + lead.length - s.cur) hst (by rw [List.length_drop]; omega) (fun off hoff => ?_) ?_
    · rw [matchAt_of_drop (by omega)]
      exact hquiet (s.cur + off) (by omega) (by omega)
    · rw [hdrop]
      simpa only [State.abs, hpos] using hrun
  obtain ⟨hr, hx⟩ := habs.unique hwhole
  exact ⟨t, d, ht, hdelivered, hr, hx⟩

/-! ### Bytes as symbols and as a value -/

@[simp] theorem bytesValue_nil : bytesValue [] = 0 := rfl

/-- The first byte is the least significant (R60). -/
theorem bytesValue_cons (b : Byte) (bs : List Byte) : bytesValue (b :: bs) = b.toNat + 256 * bytesValue bs := by
  have hor := Nat.shiftLeft_add_eq_or_of_lt b.isLt (bytesValue bs)
  rw [bytesValue, Nat.or_comm, ← hor, Nat.shiftLeft_eq]
  omega

@[simp] theorem byteSymbols_length (b : Byte) : (byteSymbols b).length = 4 := rfl

theorem length_flatMap_byteSymbols (bs : List Byte) : (bs.flatMap byteSymbols).length = 4 * bs.length := by
  induction bs with
  | nil => rfl
  | cons b bs ih =>
    rw [List.flatMap_cons, List.length_append, ih, byteSymbols_length, List.length_cons]
    omega

/-- The four symbols of a byte pack into it again (R35, R36). -/
theorem pack_byteSymbols (b : Byte) : pack (byteSymbols b) = b.toNat := by
  have := b.isLt
  simp only [byteSymbols, pack_cons, pack_nil, BitVec.extractLsb'_toNat, Nat.shiftRight_eq_div_pow]
  omega

theorem pack_flatMap_byteSymbols (bs : List Byte) : pack (bs.flatMap byteSymbols) = bytesValue bs := by
  induction bs with
  | nil => rfl
  | cons b bs ih =>
    rw [List.flatMap_cons, pack_append, pack_byteSymbols, ih, byteSymbols_length, bytesValue_cons]
    rfl

theorem take_flatMap_byteSymbols (bs : List Byte) (k : Nat) :
    (bs.flatMap byteSymbols).take (4 * k) = (bs.take k).flatMap byteSymbols := by
  induction k generalizing bs with
  | zero => simp
  | succ k ih =>
    cases bs with
    | nil => simp
    | cons b bs =>
      rw [List.take_succ_cons, List.flatMap_cons, List.flatMap_cons, ← ih, Nat.mul_succ, Nat.add_comm, ← byteSymbols_length b,
        List.take_length_add_append]

theorem drop_flatMap_byteSymbols (bs : List Byte) (k : Nat) :
    (bs.flatMap byteSymbols).drop (4 * k) = (bs.drop k).flatMap byteSymbols := by
  induction k generalizing bs with
  | zero => simp
  | succ k ih =>
    cases bs with
    | nil => simp
    | cons b bs =>
      rw [List.drop_succ_cons, List.flatMap_cons, ← ih, Nat.mul_succ, Nat.add_comm, ← byteSymbols_length b,
        List.drop_length_add_append]

/-- `to_value` on whole bytes is the value of those bytes (R37, R78). -/
theorem toValue_flatMap_byteSymbols (bs : List Byte) (a b : Nat) :
    toValue (bs.flatMap byteSymbols) ((4 * a : Nat) : Int) ((4 * b : Nat) : Int) = bytesValue ((bs.take b).drop a) := by
  rw [toValue_nat, take_flatMap_byteSymbols, drop_flatMap_byteSymbols, pack_flatMap_byteSymbols]

/-- The two bytes of a CRC, low byte first, have its value (R60). -/
theorem bytesValue_crc (c : CrcWord) : bytesValue [c.extractLsb' 0 8, c.extractLsb' 8 8] = c.toNat := by
  have := c.isLt
  simp only [bytesValue_cons, bytesValue_nil, BitVec.extractLsb'_toNat, Nat.shiftRight_eq_div_pow]
  omega

/-! ### The CRC of a request -/

/-- Byte `k` of the value of a list of bytes is its byte `k` (R37). -/
theorem byteOf_bytesValue (bs : List Byte) (k : Nat) (hk : k < bs.length) : byteOf (bytesValue bs) k = bs[k] := by
  apply BitVec.eq_of_toNat_eq
  induction bs generalizing k with
  | nil => exact absurd hk (Nat.not_lt_zero k)
  | cons b bs ih =>
    have hb := b.isLt
    cases k with
    | zero =>
      simp only [byteOf, bytesValue_cons, BitVec.toNat_ofNat, List.getElem_cons_zero, Nat.mul_zero, Nat.shiftRight_zero]
      omega
    | succ k =>
      have hshift : bytesValue (b :: bs) >>> (8 * (k + 1)) = bytesValue bs >>> (8 * k) := by
        rw [Nat.mul_succ, Nat.add_comm, Nat.shiftRight_add, bytesValue_cons, Nat.shiftRight_eq_div_pow _ 8]
        congr 1
        omega
      rw [byteOf, hshift, List.getElem_cons_succ]
      exact ih k (Nat.lt_of_succ_lt_succ hk)

/-- The register after a list of bytes takes them one after another (R70). -/
theorem crcReg_bytesValue (bs : List Byte) : crcReg (bytesValue bs) (8 * bs.length) = bs.foldl crcByte crcSeed := by
  have hbytes : (List.range bs.length).map (byteOf (bytesValue bs)) = bs := by
    refine List.ext_getElem (by simp) fun k h1 h2 => ?_
    rw [List.getElem_map, List.getElem_range, byteOf_bytesValue bs k h2]
  have hcount : (8 * bs.length + 7) / 8 = bs.length := by omega
  conv_rhs => rw [← hbytes, List.foldl_map]
  rw [crcReg, hcount]

/-- A byte that stands in the register's low byte already cancels against itself. -/
theorem crcByte_xor_self (a : CrcWord) (b : Byte) : crcByte (a ^^^ b.setWidth 16) b = crcByte a 0#8 := by
  unfold crcByte
  rw [BitVec.xor_assoc, BitVec.xor_self, BitVec.setWidth_zero]

/-- A round on a byte that stands above the low bit only shifts it. -/
theorem crcRound_shiftLeft (b : Byte) {n : Nat} (hn : n < 8) :
    crcRound (b.setWidth 16 <<< (n + 1)) = b.setWidth 16 <<< n := by
  have hlow : (b.setWidth 16 <<< (n + 1)).getLsbD 0 = false := by simp
  rw [crcRound, hlow, if_neg Bool.false_ne_true]
  ext i hi
  have hsub : 1 + i - (n + 1) = i - n := by omega
  have hle : 1 + i ≤ n ↔ i < n := by omega
  by_cases htop : i < 15
  · have hin : 1 + i < 16 := by omega
    simp [hsub, hle, hin]
  · have hout : b.getLsbD (i - n) = false := BitVec.getLsbD_of_ge b _ (by omega)
    simp [hsub, hout]

/-- Eight rounds shift the register's high byte down without feedback. -/
theorem crcByte_xor_high (a : CrcWord) (b : Byte) :
    crcByte (a ^^^ b.setWidth 16 <<< 8) 0#8 = crcByte a 0#8 ^^^ b.setWidth 16 := by
  simp only [crcByte, BitVec.setWidth_zero, BitVec.xor_zero, crcRound_xor]
  simp [crcRound_shiftLeft]

/-- A word is its two bytes. -/
theorem crcWord_eq_bytes (c : CrcWord) :
    c = (c.extractLsb' 8 8).setWidth 16 <<< 8 ^^^ (c.extractLsb' 0 8).setWidth 16 := by
  ext i hi
  by_cases h8 : i < 8
  · simp [h8, BitVec.getLsbD_eq_getElem hi]
  · have hsub : i - 8 < 8 ∧ 8 + (i - 8) = i := by omega
    simp [h8, hsub, BitVec.getLsbD_eq_getElem hi]

/-- A register followed by its own complement, low byte first, comes to the residue, whatever it was (R71, R74): both bytes cancel. -/
theorem crcByte_complement (c : CrcWord) :
    crcByte (crcByte (c ^^^ 0xFFFF#16) (c.extractLsb' 0 8)) (c.extractLsb' 8 8) = crcResidue := by
  have hsplit : c ^^^ 0xFFFF#16 =
      0xFFFF#16 ^^^ (c.extractLsb' 8 8).setWidth 16 <<< 8 ^^^ (c.extractLsb' 0 8).setWidth 16 := by
    rw [BitVec.xor_assoc, ← crcWord_eq_bytes, BitVec.xor_comm]
  rw [hsplit, crcByte_xor_self, crcByte_xor_high, crcByte_xor_self]
  decide +kernel

/-- The bytes of a request validate (R71, R74). -/
theorem validate_withCrc (bs : List Byte) : validate (bytesValue (withCrc bs)) (8 * (withCrc bs).length) = true := by
  have hreg : crcComplement bs ^^^ 0xFFFF#16 = bs.foldl crcByte crcSeed := by
    rw [crcComplement, crcReg_bytesValue, BitVec.xor_assoc, BitVec.xor_self, BitVec.xor_zero]
  rw [validate, beq_iff_eq, crcReg_bytesValue, withCrc, List.foldl_append, ← hreg]
  exact crcByte_complement (crcComplement bs)

/-! ### The report of a request -/

theorem withCrc_length (bs : List Byte) : (withCrc bs).length = bs.length + 2 := by
  simp [withCrc]

/-- The report of a frame of the bytes of a request: its own bytes, and a passing CRC (R81, R83). -/
theorem finalize_request (f c : Byte) (ps : List Byte) :
    finalize ((withCrc (f :: c :: ps)).flatMap byteSymbols) =
      { nSym := 4 * (ps.length + 4), flag := f, command := c, payloadSyms := 4 * ps.length, payload := bytesValue ps,
        crcField := crcComplement (f :: c :: ps), crcOk := true, short := false } := by
  have hbytes : (withCrc (f :: c :: ps)).length = ps.length + 4 := withCrc_length (f :: c :: ps)
  have hn : ((withCrc (f :: c :: ps)).flatMap byteSymbols).length = 4 * (ps.length + 4) := by
    rw [length_flatMap_byteSymbols, hbytes]
  have hcrc : (((4 * (ps.length + 4) : Nat) : Int) - 8) = ((4 * (ps.length + 2) : Nat) : Int) := by omega
  have hvalue := toValue_flatMap_byteSymbols (withCrc (f :: c :: ps))
  have hflag : toValue ((withCrc (f :: c :: ps)).flatMap byteSymbols) 0 4 = f.toNat := by
    simpa [withCrc, bytesValue_cons] using hvalue 0 1
  have hcommand : toValue ((withCrc (f :: c :: ps)).flatMap byteSymbols) 4 8 = c.toNat := by
    simpa [withCrc, bytesValue_cons] using hvalue 1 2
  have hpayload : toValue ((withCrc (f :: c :: ps)).flatMap byteSymbols) 8 ((4 * (ps.length + 2) : Nat) : Int) =
      bytesValue ps := (hvalue 2 (ps.length + 2)).trans (by simp [withCrc])
  have hfield : toValue ((withCrc (f :: c :: ps)).flatMap byteSymbols) ((4 * (ps.length + 2) : Nat) : Int)
      ((4 * (ps.length + 4) : Nat) : Int) = (crcComplement (f :: c :: ps)).toNat := by
    rw [hvalue, List.take_of_length_le hbytes.le, ← bytesValue_crc]
    simp [withCrc]
  have hall : toValue ((withCrc (f :: c :: ps)).flatMap byteSymbols) 0 ((4 * (ps.length + 4) : Nat) : Int) =
      bytesValue (withCrc (f :: c :: ps)) := (hvalue 0 (ps.length + 4)).trans (by rw [List.take_of_length_le hbytes.le]; rfl)
  have hok := validate_withCrc (f :: c :: ps)
  rw [hbytes] at hok
  have hbits : 2 * (4 * (ps.length + 4)) = 8 * (ps.length + 4) := by omega
  have hsyms : 4 * (ps.length + 4) - 16 = 4 * ps.length := by omega
  have hshort : isShort (4 * (ps.length + 4)) = false := decide_eq_false (by simp only [minSyms]; omega)
  simp only [finalize, hn, hcrc, hflag, hcommand, hpayload, hfield, hall, hbits, hok, hsyms, hshort, BitVec.ofNat_toNat,
    BitVec.setWidth_eq]

end Sys2Proof.Machine

open Sys2Proof Sys2Proof.Machine

/-- Settles O49: the stream of the request is a frame after a lead-in, and its report is that of the request's symbols. -/
theorem requestIsDecodedWithGoodCrc : Obligations.RequestIsDecodedWithGoodCrc := by
  unfold Obligations.RequestIsDecodedWithGoodCrc
  intro s lead f c ps la hinv hidle hstarted hst hapart hcap hla new hwf hquiet
  have ⟨hg, _, hseek, _, _⟩ := hinv
  have hfb : s.fb = [] := hseek hst
  have hlen := length_flatMap_byteSymbols (withCrc (f :: c :: ps))
  rw [withCrc_length, List.length_cons, List.length_cons] at hlen
  have hnew : new = lead ++ (request s.cfg (f :: c :: ps) ++ la) := List.append_assoc ..
  rw [hnew] at hwf hquiet ⊢
  have hframe : 8 ≤ (request s.cfg (f :: c :: ps)).length := eight_le_frameOfSymbols_length hg _
  -- the run over the request's frame ends at the four samples after it
  have hrun : AbsRun s.cfg (request s.cfg (f :: c :: ps) ++ la) { s.abs s.base [] with pos := s.total + lead.length } la _ :=
    .frame hg hapart hst (by simp only [State.abs, hfb, hlen, List.length_nil]; omega) hla.ge (.stop (by omega))
  obtain ⟨t, d, ht, hdelivered, -, hd⟩ := execProcess_of_absRun_after_lead hinv hidle hstarted hst hwf hquiet
    (by rw [List.length_append]; omega) hrun
  refine ⟨t, d, ht, hdelivered, ?_⟩
  have hreps := congrArg Abs.reps hd
  rw [Abs.afterFrame_reps] at hreps
  rw [← finalize_request]
  simpa [State.abs, hfb] using hreps

end

section
/-! The obligations of the Symbol Catalog: `match` sample by sample, `classify` as the one match, and the flipped Data pattern. -/

namespace Sys2Proof

/-- `match` sample by sample (R64). -/
theorem matchAt_iff_getElem? {W : List Sample} {off : Nat} {pat : List Sample} :
    matchAt W off pat = true ↔ off + pat.length ≤ W.length ∧ ∀ i, i < pat.length → W[off + i]? = pat[i]? := by
  constructor
  · exact fun h => ⟨(matchAt_iff_take.1 h).1, fun i hi => getElem?_of_matchAt h hi⟩
  · rintro ⟨hfit, heq⟩
    refine matchAt_iff_take.2 ⟨hfit, List.ext_getElem? fun i => ?_⟩
    by_cases hi : i < pat.length
    · rw [List.getElem?_take_of_lt hi, List.getElem?_drop, heq i hi]
    · have hout : pat.length ≤ i := Nat.le_of_not_lt hi
      rw [List.getElem?_eq_none hout, List.getElem?_eq_none ((List.length_take_le ..).trans hout)]

/-- At the window's start a pattern that fits matches exactly when it begins the window. -/
theorem matchAt_zero_iff {W pat : List Sample} (hl : pat.length ≤ W.length) :
    matchAt W 0 pat = true ↔ W.take pat.length = pat := by
  simpa using matchAt_append_iff (before := []) (after := []) hl

/-- `classify` answers `k` exactly when `PAT_D[k]` matches (R66, R67). -/
theorem classify_eq_some_iff {g : Config} (hg : g.wf = true) {W : List Sample} {off : Nat} {k : Code} :
    classify g W off = some k ↔ matchAt W off (g.catalog.data k) = true :=
  ⟨classify_some, classify_of_matchAt hg⟩

/-! ### The one low sample of a Data pattern (R8 (c)) -/

/-- A run of two levels with one low sample is low at that sample's place and high elsewhere. -/
theorem getElem?_of_count_eq_one {hi lo : Sample} {p : List Sample} (hmem : ∀ x ∈ p, x = hi ∨ x = lo)
    (hcount : p.count lo = 1) {i : Nat} (hlt : i < p.length) : p[i]? = some (if i = p.idxOf lo then lo else hi) := by
  induction p generalizing i with
  | nil => exact absurd hlt (Nat.not_lt_zero i)
  | cons x xs ih =>
    obtain ⟨hx, hxs⟩ := List.forall_mem_cons.1 hmem
    by_cases hlo : x = lo
    · -- the low sample is the first, so none of the others is low
      subst hlo
      have hnone : x ∉ xs := List.count_eq_zero.1 (by simpa using hcount)
      cases i with
      | zero => simp
      | succ j =>
        have hj : j < xs.length := Nat.lt_of_succ_lt_succ hlt
        have hhigh : xs[j] = hi := (hxs _ (List.getElem_mem hj)).resolve_right fun h => hnone (h ▸ List.getElem_mem hj)
        simp [hj, hhigh]
    · -- the low sample is among the others
      have hrest : xs.count lo = 1 := by simpa [hlo] using hcount
      rw [List.idxOf_cons_ne xs hlo]
      cases i with
      | zero => simp [hx.resolve_right hlo]
      | succ j => simpa using ih hxs hrest (Nat.lt_of_succ_lt_succ hlt)

/-- Flipping any sample of a run with one low sample leaves no low sample or two (R68). -/
theorem count_set_flip_ne_one {hi lo : Sample} (hne : hi ≠ lo) {p : List Sample} (hcount : p.count lo = 1) {i : Nat}
    (hlt : i < p.length) : (p.set i (if p[i]? = some lo then hi else lo)).count lo ≠ 1 := by
  rw [List.count_set hlt, hcount, List.getElem?_eq_getElem hlt]
  by_cases hlow : p[i] = lo <;> simp [hlow, hne]

/-- Eight samples that do not hold exactly one low sample are no Data pattern. -/
theorem classify_eq_none_of_count_ne_one {g : Config} (hg : g.wf = true) {W : List Sample} (hl : W.length = 8)
    (hcount : W.count g.sLo ≠ 1) : classify g W 0 = none := by
  have parts := g.wf_parts hg
  refine classify_none.2 fun k => Bool.eq_false_iff.2 fun hm => hcount ?_
  have hlen : (g.catalog.data k).length = W.length := by rw [parts.data_length, hl]
  rw [matchAt_zero_iff hlen.le, hlen, List.take_length] at hm
  rw [hm, parts.data_count]

end Sys2Proof

open Sys2Proof Sys2Proof.Machine

/-- Settles O22: `match` compares the window's run with the pattern, and two lists are equal when their elements are. -/
theorem matchIsExactEquality : Obligations.MatchIsExactEquality := by
  unfold Obligations.MatchIsExactEquality
  exact fun _ _ _ => matchAt_iff_getElem?

/-- Settles O23: the Data patterns are pairwise different, and each is its low position. -/
theorem classifyIsTheOneMatch : Obligations.ClassifyIsTheOneMatch := by
  unfold Obligations.ClassifyIsTheOneMatch
  intro g W off k hg
  have parts := g.wf_parts hg
  refine ⟨classify_eq_some_iff hg, ?_⟩
  rw [classify_eq_some_iff hg, matchAt_iff_getElem?, parts.data_length]
  refine and_congr_right fun _ => forall₂_congr fun i hi => ?_
  rw [getElem?_of_count_eq_one (parts.data_mem k) (parts.data_count k) (by rwa [parts.data_length])]

/-- Settles O24, by the count of low samples: a Data pattern has one, the flipped pattern none or two. -/
theorem oneFlippedSampleIsNoData : Obligations.OneFlippedSampleIsNoData := by
  unfold Obligations.OneFlippedSampleIsNoData
  intro g k i n hg hi p W
  have parts := g.wf_parts hg
  have hp : p.length = 8 := parts.data_length k
  have hW : W.length = 8 := by rw [List.length_set, hp]
  have hclass : classify g W 0 = none :=
    classify_eq_none_of_count_ne_one hg hW (count_set_flip_ne_one parts.hi_ne_lo (parts.data_count k) (hi.trans_eq hp.symm))
  have heof : matchAt W 0 g.catalog.eof = true ↔ W.take 4 = g.catalog.eof := by
    rw [matchAt_zero_iff (by rw [parts.eof_length, hW]; decide), parts.eof_length]
  refine ⟨hclass, ?_⟩
  split
  case isTrue h => exact decode_eof hW.ge (heof.2 h)
  case isFalse h => exact decode_corrupt hW.ge (Bool.eq_false_iff.2 (mt heof.1 h)) hclass

end

section
/-! The obligations of the CRC-16 Validator: the bytes it is given, its algorithm, and what it detects. -/

namespace Sys2Proof.Machine

/-! ### The bytes of a frame (R37, R72) -/

/-- The first symbol is the lowest digit of a packed run; one that is absent counts as 0. -/
theorem pack_drop_eq_getD (cs : List Code) (i : Nat) :
    pack (cs.drop i) = (cs.getD i 0#2).toNat + 4 * pack (cs.drop (i + 1)) := by
  by_cases hi : i < cs.length
  · rw [List.drop_eq_getElem_cons hi, pack_cons, List.getD_eq_getElem cs 0#2 hi]
  · have hout : cs.length ≤ i := Nat.le_of_not_lt hi
    rw [List.drop_of_length_le hout, List.drop_of_length_le (Nat.le_succ_of_le hout), List.getD_eq_default cs 0#2 hout]
    rfl

/-- A symbol put below a number is its lowest base-4 digit (R36). -/
theorem toNat_append_code {w : Nat} (x : BitVec w) (c : Code) : (x ++ c).toNat = c.toNat + 4 * x.toNat := by
  rw [BitVec.toNat_append, ← Nat.shiftLeft_add_eq_or_of_lt c.isLt, Nat.shiftLeft_eq]
  omega

/-- Byte `k` of a packed run is its symbols `4k` to `4k+3` (R37). -/
theorem byteOf_pack (cs : List Code) (k : Nat) :
    byteOf (pack cs) k =
      (cs.getD (4 * k + 3) 0#2 ++ cs.getD (4 * k + 2) 0#2 ++ cs.getD (4 * k + 1) 0#2 ++ cs.getD (4 * k) 0#2) := by
  have hsymbols : 8 * k = 2 * (4 * k) := by omega
  apply BitVec.eq_of_toNat_eq
  rw [byteOf, BitVec.toNat_ofNat, hsymbols, pack_shiftRight]
  -- four digits are peeled off on both sides
  have hlow := (cs.getD (4 * k) 0#2).isLt
  have hsecond := (cs.getD (4 * k + 1) 0#2).isLt
  have hthird := (cs.getD (4 * k + 2) 0#2).isLt
  have hfourth := (cs.getD (4 * k + 3) 0#2).isLt
  simp only [pack_drop_eq_getD cs (4 * k), pack_drop_eq_getD cs (4 * k + 1), pack_drop_eq_getD cs (4 * k + 2),
    pack_drop_eq_getD cs (4 * k + 3), toNat_append_code]
  omega

/-! ### The algorithm (R70, R71) -/

/-- A byte is eight rounds over the register with the byte XORed in (R70). -/
theorem crcByte_eq_repeat (r : CrcWord) (b : Byte) : crcByte r b = Nat.repeat crcRound 8 (r ^^^ b.setWidth 16) := rfl

/-- The byte as the number that is XORed into the register. -/
theorem setWidth_byteOf (v k : Nat) : (byteOf v k).setWidth 16 = BitVec.ofNat 16 (v / 2 ^ (8 * k) % 256) := by
  apply BitVec.eq_of_toNat_eq
  rw [BitVec.toNat_setWidth, byteOf, BitVec.toNat_ofNat, BitVec.toNat_ofNat, Nat.shiftRight_eq_div_pow]

/-- A round as arithmetic: halve, and XOR the polynomial in when the register was odd (R70). -/
theorem crcRound_toNat (r : CrcWord) :
    (crcRound r).toNat = if r.toNat % 2 = 1 then (r.toNat / 2) ^^^ 0x8408 else r.toNat / 2 := by
  have hlow : r.getLsbD 0 = decide (r.toNat % 2 = 1) := Nat.testBit_zero r.toNat
  have hhalf : (r >>> 1).toNat = r.toNat / 2 := by rw [BitVec.toNat_ushiftRight, Nat.shiftRight_eq_div_pow, Nat.pow_one]
  by_cases hodd : r.toNat % 2 = 1
  · rw [crcRound, hlow, decide_eq_true hodd, if_pos rfl, if_pos hodd, BitVec.toNat_xor, hhalf]
    rfl
  · rw [crcRound, hlow, decide_eq_false hodd, if_neg Bool.false_ne_true, if_neg hodd, hhalf]

/-- The frame is valid exactly when the register is the residue (R71). -/
theorem validate_iff {v n : Nat} : validate v n = true ↔ crcReg v n = crcResidue := beq_iff_eq

/-! ### One different byte -/

/-- Values with the same bytes have the same register. -/
theorem crcReg_congr {v w n : Nat} (h : ∀ k, k < n → byteOf v k = byteOf w k) : crcReg v (8 * n) = crcReg w (8 * n) := by
  induction n with
  | zero => rfl
  | succ n ih =>
    rw [crcReg_bytes_succ, crcReg_bytes_succ, h n n.lt_succ_self, ih fun k hk => h k (Nat.lt_succ_of_lt hk)]

/-- Values that differ in one byte alone have different registers from that byte on. -/
theorem crcReg_ne_of_one_byte_ne {v w m n : Nat} (hm : m < n) (hne : byteOf v m ≠ byteOf w m)
    (hsame : ∀ k, k ≠ m → byteOf v k = byteOf w k) : crcReg v (8 * n) ≠ crcReg w (8 * n) := by
  induction n, hm using Nat.le_induction with
  | base =>
    -- the registers before the differing byte agree
    have hbefore : crcReg v (8 * m) = crcReg w (8 * m) := crcReg_congr fun k hk => hsame k (Nat.ne_of_lt hk)
    rw [crcReg_bytes_succ, crcReg_bytes_succ, hbefore]
    exact fun h => hne (crcByte_injective_byte h)
  | succ n hm ih =>
    rw [crcReg_bytes_succ, crcReg_bytes_succ, hsame n (Nat.ne_of_gt hm)]
    exact fun h => ih (crcByte_injective_reg h)

/-- Bit `j` of byte `k` is bit `8k + j` of the value (R37). -/
theorem getLsbD_byteOf (v k : Nat) {j : Nat} (hj : j < 8) : (byteOf v k).getLsbD j = v.testBit (8 * k + j) := by
  rw [byteOf, BitVec.getLsbD_ofNat, decide_eq_true hj, Bool.true_and, Nat.testBit_shiftRight]

/-- Flipping bit `i` changes the byte that holds it. -/
theorem byteOf_flip_ne (v i : Nat) : byteOf (v ^^^ 2 ^ i) (i / 8) ≠ byteOf v (i / 8) := by
  intro h
  have hbit := congrArg (fun b : Byte => b.getLsbD (i % 8)) h
  simp [getLsbD_byteOf _ _ (Nat.mod_lt i (by decide : 0 < 8)), Nat.div_add_mod, Nat.testBit_xor] at hbit

/-- Flipping bit `i` leaves every other byte as it was. -/
theorem byteOf_flip_of_ne {v i k : Nat} (hk : k ≠ i / 8) : byteOf (v ^^^ 2 ^ i) k = byteOf v k := by
  refine BitVec.eq_of_getLsbD_eq fun j hj => ?_
  have hother : i ≠ 8 * k + j := by omega
  rw [getLsbD_byteOf _ _ hj, getLsbD_byteOf _ _ hj, Nat.testBit_xor, Nat.testBit_two_pow, decide_eq_false hother, Bool.xor_false]

/-- Flipping one bit of the value changes the register (R75, S6). -/
theorem crcReg_flip_ne (v : Nat) {n i : Nat} (hi : i < n) : crcReg (v ^^^ 2 ^ i) n ≠ crcReg v n := by
  rw [crcReg_ceil, crcReg_ceil v]
  exact crcReg_ne_of_one_byte_ne (by omega) (byteOf_flip_ne v i) fun _ hk => byteOf_flip_of_ne hk

/-- A valid frame with one bit flipped is invalid (R75, S6). -/
theorem validate_flip {v n i : Nat} (hi : i < n) (hv : validate v n = true) : validate (v ^^^ 2 ^ i) n = false :=
  Bool.eq_false_iff.2 fun hf => crcReg_flip_ne v hi ((validate_iff.1 hf).trans (validate_iff.1 hv).symm)

/-! ### The last two bytes (R74) -/

/-- A byte may as well stand in the register already. -/
theorem crcByte_eq_crcByte_xor (a : CrcWord) (b : Byte) : crcByte a b = crcByte (a ^^^ b.setWidth 16) 0#8 := by
  rw [← crcByte_xor_self _ b, BitVec.xor_assoc, BitVec.xor_self, BitVec.xor_zero]

/-- Two bytes side by side, as the register holds them. -/
theorem append_eq_shiftLeft_xor (y x : Byte) : (y ++ x : CrcWord) = y.setWidth 16 <<< 8 ^^^ x.setWidth 16 := by
  have h := crcWord_eq_bytes (y ++ x)
  rwa [BitVec.extractLsb'_append_eq_left, BitVec.extractLsb'_append_eq_right] at h

/-- Two bytes one after the other are one XOR of both into the register, followed by sixteen rounds. -/
theorem crcByte_crcByte_eq (a : CrcWord) (x y : Byte) :
    crcByte (crcByte a x) y = crcByte (crcByte (a ^^^ (y ++ x)) 0#8) 0#8 := by
  rw [crcByte_eq_crcByte_xor _ y, crcByte_eq_crcByte_xor a x, ← crcByte_xor_high, BitVec.xor_assoc a,
    BitVec.xor_comm (x.setWidth 16), ← append_eq_shiftLeft_xor]

/-- From one register, two bytes are told apart by the register after them. -/
theorem crcByte_crcByte_injective {a : CrcWord} {x y x' y' : Byte}
    (h : crcByte (crcByte a x) y = crcByte (crcByte a x') y') : x = x' ∧ y = y' := by
  rw [crcByte_crcByte_eq a x y, crcByte_crcByte_eq a x' y'] at h
  have hword : y ++ x = y' ++ x' := (BitVec.xor_right_inj a).1 (crcByte_injective_reg (crcByte_injective_reg h))
  constructor
  · rw [← BitVec.extractLsb'_append_eq_right (a := y) (b := x), hword, BitVec.extractLsb'_append_eq_right]
  · rw [← BitVec.extractLsb'_append_eq_left (a := y) (b := x), hword, BitVec.extractLsb'_append_eq_left]

/-- Bytes followed by two more validate exactly when the two are those of `withCrc`. -/
theorem validate_append_two_iff (d : List Byte) (x y : Byte) :
    validate (bytesValue (d ++ [x, y])) (8 * (d ++ [x, y]).length) = true ↔
      x = (crcComplement d).extractLsb' 0 8 ∧ y = (crcComplement d).extractLsb' 8 8 := by
  constructor
  · intro h
    have hreq := validate_withCrc d
    rw [validate_iff, crcReg_bytesValue, withCrc, List.foldl_append] at hreq
    rw [validate_iff, crcReg_bytesValue, List.foldl_append, ← hreq] at h
    exact crcByte_crcByte_injective h
  · rintro ⟨rfl, rfl⟩
    exact validate_withCrc d

/-- `crc_ok` of a frame of whole bytes validates their value (R83). -/
theorem finalize_flatMap_byteSymbols_crcOk (bs : List Byte) :
    (finalize (bs.flatMap byteSymbols)).crcOk = validate (bytesValue bs) (8 * bs.length) := by
  have hbits : 2 * (4 * bs.length) = 8 * bs.length := by omega
  rw [finalize, toValue_all, pack_flatMap_byteSymbols, length_flatMap_byteSymbols, hbits]

end Sys2Proof.Machine

open Sys2Proof Sys2Proof.Machine

/-- Settles O33: the whole frame's value is its packed symbols, and a byte is four of their base-4 digits. -/
theorem bytesOfTheFrame : Obligations.BytesOfTheFrame := by
  unfold Obligations.BytesOfTheFrame
  intro fb k
  rw [toValue_all, byteOf_pack]

/-- Settles O36: the register's recursion over bytes, a byte as eight rounds, and a round as arithmetic. -/
theorem crcAlgorithm : Obligations.CrcAlgorithm := by
  unfold Obligations.CrcAlgorithm
  refine ⟨crcReg_zero, crcReg_ceil, fun v n => ?_, crcRound_toNat, fun _ _ => validate_iff⟩
  rw [crcReg_bytes_succ, crcByte_eq_repeat, setWidth_byteOf]

/-- Settles O38: the flip changes one byte, that byte changes the register, and no later byte can undo it. -/
theorem oneFlippedBitFailsTheCrc : Obligations.OneFlippedBitFailsTheCrc := by
  unfold Obligations.OneFlippedBitFailsTheCrc
  exact fun v _ _ hi => ⟨crcReg_flip_ne v hi, validate_flip hi⟩

/-- Settles O39: the complement's two bytes validate, and no other two bytes lead to the same register. -/
theorem crcPassesExactlyForTheTransmittedCrc : Obligations.CrcPassesExactlyForTheTransmittedCrc := by
  unfold Obligations.CrcPassesExactlyForTheTransmittedCrc
  intro d x y c
  rw [finalize_flatMap_byteSymbols_crcOk]
  exact validate_append_two_iff d x y

/-- Settles O37: the registers are computed, and the 40 flips fail because the example validates. -/
theorem crcWorkedExample : Obligations.CrcWorkedExample := by
  unfold Obligations.CrcWorkedExample
  have hvalid : validate 0x0AF6000126 40 = true := by decide +kernel
  exact ⟨by decide +kernel, by decide +kernel, by decide +kernel, by decide +kernel, validate_iff.1 hvalid, hvalid,
    by decide, fun i => validate_flip i.isLt hvalid⟩

end

section
/-! The obligations of the Frame Accumulator: `to_value`, the fields of a report, and the decoding of a whole frame. -/

namespace Sys2Proof.Machine

/-! ### `to_value` (R78) -/

/-- A range of symbols has two bits for each of its symbols (R35, R78). -/
theorem toValue_lt (fb : List Code) (a b : Int) : toValue fb a b < 2 ^ (2 * (min b fb.length - max a 0).toNat) := by
  have hlen : ((fb.take (min b fb.length).toNat).drop (max a 0).toNat).length = (min b fb.length - max a 0).toNat := by
    rw [List.length_drop, List.length_take]
    omega
  rw [toValue, ← hlen]
  exact (symbolsPackLeastSignificantFirst _).2

/-- A range of symbols fits a width that has two bits for each index of the range (R84). -/
theorem toValue_lt_two_pow (fb : List Code) {a b : Int} {w : Nat} (hw : 2 * (b - a) ≤ w) : toValue fb a b < 2 ^ w :=
  (toValue_lt fb a b).trans_le (Nat.pow_le_pow_right Nat.zero_lt_two (by omega))

/-- A range without an index has the value 0 (R78). -/
theorem toValue_eq_zero {fb : List Code} {a b : Int} (h : min b fb.length ≤ max a 0) : toValue fb a b = 0 := by
  have hlt := toValue_lt fb a b
  rwa [Int.toNat_of_nonpos (Int.sub_nonpos_of_le h), Nat.mul_zero, Nat.pow_zero, Nat.lt_one_iff] at hlt

/-- Digit `j` of a range is its symbol `j` (R35, R78). -/
theorem toValue_digit {fb : List Code} {a b : Int} {i j : Nat} (hi : (i : Int) = max a 0 + j)
    (hlt : (i : Int) < min b fb.length) : (fb[i]?).map BitVec.toNat = some ((toValue fb a b >>> (2 * j)) % 4) := by
  have hj : j < ((fb.take (min b fb.length).toNat).drop (max a 0).toNat).length := by
    rw [List.length_drop, List.length_take]
    omega
  have hindex : (max a 0).toNat + j = i := by omega
  have hin : i < fb.length := by omega
  rw [List.getElem?_eq_getElem hin, Option.map_some, toValue, (symbolsPackLeastSignificantFirst _).1 j hj, List.getElem_drop,
    List.getElem_take]
  simp only [hindex]

/-- Two adjacent ranges, one laid after the other, are the whole range (R35). -/
theorem toValue_split (fb : List Code) {a m b : Nat} (ham : a ≤ m) (hmb : m ≤ b) (hb : b ≤ fb.length) :
    toValue fb a b = toValue fb a m + 2 ^ (2 * (m - a)) * toValue fb m b := by
  have hrange : (fb.take b).drop a = (fb.take m).drop a ++ (fb.take b).drop m := by
    conv_lhs => rw [← List.take_append_drop m (fb.take b), List.take_take, Nat.min_eq_left hmb]
    exact List.drop_append_of_le_length (by rw [List.length_take]; omega)
  have hlen : ((fb.take m).drop a).length = m - a := by
    rw [List.length_drop, List.length_take]
    omega
  rw [toValue_nat, toValue_nat, toValue_nat, hrange, pack_append, hlen, Nat.pow_mul]

/-! ### The fields of a report (R81 to R84) -/

theorem finalize_payloadSyms (fb : List Code) : (finalize fb).payloadSyms = fb.length - 16 := rfl

theorem finalize_payload (fb : List Code) : (finalize fb).payload = toValue fb 8 ((fb.length : Int) - 8) := rfl

/-- The flag's four symbols are its eight bits (R81, R84). -/
theorem finalize_flag_toNat (fb : List Code) : (finalize fb).flag.toNat = toValue fb 0 4 :=
  (BitVec.toNat_ofNat ..).trans (Nat.mod_eq_of_lt (toValue_lt_two_pow fb (by decide)))

/-- The command's four symbols are its eight bits (R81, R84). -/
theorem finalize_command_toNat (fb : List Code) : (finalize fb).command.toNat = toValue fb 4 8 :=
  (BitVec.toNat_ofNat ..).trans (Nat.mod_eq_of_lt (toValue_lt_two_pow fb (by decide)))

/-- The last eight symbols are the CRC field's sixteen bits; a shorter frame has fewer (R81, R82, R84). -/
theorem finalize_crcField_toNat (fb : List Code) :
    (finalize fb).crcField.toNat = toValue fb ((fb.length : Int) - 8) fb.length :=
  (BitVec.toNat_ofNat ..).trans (Nat.mod_eq_of_lt (toValue_lt_two_pow fb (by omega)))

/-- The payload has two bits for each of its symbols, none in a short frame (R55, R82). -/
theorem finalize_payload_lt (fb : List Code) : (finalize fb).payload < 2 ^ (2 * (finalize fb).payloadSyms) :=
  toValue_lt_two_pow fb (by rw [finalize_payloadSyms]; omega)

theorem finalize_short_iff (fb : List Code) : (finalize fb).short = true ↔ fb.length < 16 := decide_eq_true_iff

/-! ### The run over a frame: where its markers stand -/

@[simp] theorem stepMarker_dataInstr (k : Code) : stepMarker (dataInstr k) = some (dataMarker k) := by
  rcases code_cases k with rfl | rfl | rfl | rfl <;> rfl

theorem Abs.afterSymbols_pos (x : Abs) (ks : List Code) : (x.afterSymbols ks).pos = x.pos + 8 * ks.length := by
  induction ks generalizing x with
  | nil => rfl
  | cons k ks ih =>
    have hafter : (x.after (dataInstr k)).pos = x.pos + 8 := congrArg (x.pos + ·) (stepAdvance_dataInstr k)
    rw [Abs.afterSymbols_cons, ih, hafter, List.length_cons]
    omega

/-- Each symbol's marker stands where the symbol begins (R92). -/
theorem Abs.afterSymbols_trace (x : Abs) (ks : List Code) :
    (x.afterSymbols ks).trace = x.trace ++ ks.mapIdx fun i k => (x.pos + 8 * i, dataMarker k) := by
  induction ks generalizing x with
  | nil => simp
  | cons k ks ih =>
    rw [Abs.afterSymbols_cons, ih, List.mapIdx_cons]
    simp [Abs.after, Nat.mul_add, Nat.add_assoc, Nat.add_comm 8]

/-- The markers of a frame: its Preamble's, its symbols', its EOF's (R89, R91, R92). -/
theorem Abs.afterFrame_trace (x : Abs) (ks : List Code) :
    (x.afterFrame ks).trace = x.trace ++ [(x.pos, .preamble)] ++
      ks.mapIdx (fun i k => (x.pos + 8 + 8 * i, dataMarker k)) ++ [(x.pos + 8 + 8 * ks.length, .eof)] := by
  have htrace := (x.after .preamble).afterSymbols_trace ks
  have hpos := (x.after .preamble).afterSymbols_pos ks
  rw [Abs.afterFrame, Abs.after, htrace, hpos]
  rfl

/-- PROCESS saves the end of its window (R104, R108). -/
theorem execProcess_tail {s t : State} {new : List Sample} (h : exec (.process new) s = .next t) :
    t.tail = lastN tailMax (s.tail ++ new) := by
  obtain ⟨a, b, v, w, n, hopen, hv, hwindow, -, -, -, -, hrun, hw, -, rfl⟩ := execProcess_run h
  obtain ⟨-, -, -, -, -, -, -, -, w', hw', -, -, fwindow, -⟩ := hrun.frame hv
  obtain rfl : w = w' := Option.some.inj (hw.symm.trans hw')
  rw [closeInvocation_tail, fwindow, hwindow]

/-- After a full tail save, the cursor is as far from the tail's end as samples are left (R108, R109). -/
theorem execProcess_cur {s t : State} {new r : List Sample} (h : exec (.process new) s = .next t) (hnew : 7 ≤ new.length)
    (hr : t.tail.drop t.cur = r) (hpos : 0 < r.length) : t.cur = 7 - r.length := by
  have hlen := congrArg List.length hr
  rw [List.length_drop, execProcess_tail h, lastN_length, List.length_append] at hlen
  simp only [tailMax] at hlen
  omega

end Sys2Proof.Machine

open Sys2Proof Sys2Proof.Machine

/-- Settles O32: a range is packed least significant first, so its digits are its symbols and there are no more. -/
theorem toValueFoldsTheClampedRange : Obligations.ToValueFoldsTheClampedRange := by
  unfold Obligations.ToValueFoldsTheClampedRange
  exact fun fb a b => ⟨toValue_eq_zero, fun _ _ => toValue_digit, fun _ => toValue_lt fb a b⟩

/-- Settles O48: the run over the frame, after the lead-in's SKIPs, ends with the four samples left that follow it. -/
theorem frameIsDecoded : Obligations.FrameIsDecoded := by
  unfold Obligations.FrameIsDecoded
  intro s lead ks la hinv hidle hstarted hst hapart hcap hla new hwf hquiet p
  have ⟨hg, _, hseek, _, _⟩ := hinv
  have hfb : s.fb = [] := hseek hst
  have hnew : new = lead ++ (frameOfSymbols s.cfg ks ++ la) := List.append_assoc ..
  rw [hnew] at hwf hquiet ⊢
  have hframe := eight_le_frameOfSymbols_length hg ks
  have hrest : 8 ≤ (frameOfSymbols s.cfg ks ++ la).length := by
    rw [List.length_append]
    omega
  have hrun : AbsRun s.cfg (frameOfSymbols s.cfg ks ++ la) { s.abs s.base [] with pos := p } la _ :=
    .frame hg hapart hst (by simpa [State.abs, hfb] using hcap) hla.ge (.stop (by omega))
  obtain ⟨t, d, ht, hdelivered, hleft, hd⟩ := execProcess_of_absRun_after_lead hinv hidle hstarted hst hwf hquiet
    (by omega) hrun
  have hcur := execProcess_cur ht (by rw [List.length_append]; omega) hleft (by omega)
  refine ⟨t, d, ht, congrArg Abs.st hd, congrArg Abs.fb hd, by rw [hcur, hla], hdelivered, ?_, ?_⟩
  · have hreps := congrArg Abs.reps hd
    rw [Abs.afterFrame_reps] at hreps
    simpa [State.abs, hfb] using hreps
  · exact (congrArg Abs.trace hd).trans (Abs.afterFrame_trace _ ks)

/-- Settles O34: the frame's range is cut at symbols 4, 8 and `N − 8`, and each part is a field. -/
theorem fieldsMakeUpTheFrame : Obligations.FieldsMakeUpTheFrame := by
  unfold Obligations.FieldsMakeUpTheFrame
  intro fb hlen r
  have hcut : ((fb.length - 8 : Nat) : Int) = (fb.length : Int) - 8 := by omega
  have hflag : toValue fb 0 fb.length = toValue fb 0 4 + 2 ^ 8 * toValue fb 4 fb.length :=
    toValue_split fb (a := 0) (m := 4) (by omega) (by omega) le_rfl
  have hcommand : toValue fb 4 fb.length = toValue fb 4 8 + 2 ^ 8 * toValue fb 8 fb.length :=
    toValue_split fb (a := 4) (m := 8) (by omega) (by omega) le_rfl
  have hpayload : toValue fb 8 fb.length = toValue fb 8 ((fb.length : Int) - 8) +
      2 ^ (2 * (fb.length - 8 - 8)) * toValue fb ((fb.length : Int) - 8) fb.length := by
    rw [← hcut]
    exact toValue_split fb (a := 8) (by omega) (by omega) le_rfl
  have hplace : 2 * fb.length - 16 = 16 + 2 * (fb.length - 8 - 8) := by omega
  refine ⟨decide_eq_false (by simp only [minSyms]; omega), rfl, rfl, finalize_payload_lt fb, ?_⟩
  rw [finalize_flag_toNat, finalize_command_toNat, finalize_crcField_toNat, hflag, hcommand, hpayload, finalize_payload,
    hplace, Nat.pow_add]
  ring

/-- Settles O35: each field's range has no more bits than the field. -/
theorem reportFields : Obligations.ReportFields := by
  unfold Obligations.ReportFields
  intro fb n
  exact ⟨rfl, finalize_flag_toNat fb, finalize_command_toNat fb, by rw [finalize_payloadSyms]; omega, rfl, finalize_payload_lt fb,
    finalize_crcField_toNat fb, validate_iff, finalize_short_iff fb⟩

end

section
/-! The obligations of the stream decoder: the step that the dispatch selects, what each of the nine steps answers, and the streams
without a Preamble and with one inside a frame. -/

namespace Sys2Proof

/-! ### Patterns at one place -/

/-- Where a pattern matches, so does its beginning (R64). -/
theorem matchAt_take {W : List Sample} {off : Nat} {pat : List Sample} (h : matchAt W off pat = true) (n : Nat) :
    matchAt W off (pat.take n) = true := by
  obtain ⟨hfit, heq⟩ := matchAt_iff_take.1 h
  have hlen : (pat.take n).length = min n pat.length := List.length_take
  refine matchAt_iff_take.2 ⟨by omega, ?_⟩
  rw [hlen, ← List.take_take, heq]

/-- The Preamble of R8 (f) is no Data pattern. -/
theorem pre_ne_data {c : Catalog} (h : c.preApart = true) (k : Code) : c.pre ≠ c.data k := by
  simp only [Catalog.preApart, Bool.and_eq_true, bne_iff_ne, ne_eq] at h
  obtain ⟨⟨⟨h0, h1⟩, h2⟩, h3⟩ := h
  rcases code_cases k with rfl | rfl | rfl | rfl
  exacts [h0, h1, h2, h3]

/-- A Preamble under the cursor is read as neither EOF nor Data, where it is no Data pattern and does not begin with EOF. -/
theorem eof_classify_of_matchAt_pre {g : Config} {W : List Sample} {off : Nat} (hg : g.wf = true)
    (hapart : g.catalog.preApart = true) (hne : g.catalog.pre.take 4 ≠ g.catalog.eof)
    (hpre : matchAt W off g.catalog.pre = true) : matchAt W off g.catalog.eof = false ∧ classify g W off = none := by
  have parts := g.wf_parts hg
  constructor
  · have hlen : (g.catalog.pre.take 4).length = g.catalog.eof.length := by
      rw [List.length_take, parts.pre_length, parts.eof_length]
      rfl
    exact Bool.eq_false_iff.2 fun heof => hne (matchAt_unique hlen (matchAt_take hpre 4) heof)
  · have hlen : ∀ k, g.catalog.pre.length = (g.catalog.data k).length := fun k => by
      rw [parts.pre_length, parts.data_length]
    exact classify_none.2 fun k => Bool.eq_false_iff.2 fun hk => pre_ne_data hapart k (matchAt_unique (hlen k) hpre hk)

end Sys2Proof

namespace Sys2Proof.Machine

/-! ### Conditions and the dispatch (R88) -/

theorem mem_decoderSteps_of_stepCondition {i : Instr} {s : State} {v : Invocation} (h : stepCondition i s v) :
    i ∈ decoderSteps := by
  cases i with
  | reset => exact h.elim
  | process new => exact h.elim
  | _ => simp [decoderSteps]

/-- The four Data steps have one Condition, each for its own code (R92). -/
theorem stepCondition_dataInstr {k : Code} {s : State} {v : Invocation} :
    stepCondition (dataInstr k) s v ↔ s.st = .receivingData ∧ matchAt v.window s.cur s.cfg.catalog.eof = false ∧
      classify s.cfg v.window s.cur = some k ∧ s.fb.length < s.cfg.frameCap := by
  rcases code_cases k with rfl | rfl | rfl | rfl <;> rfl

/-- Where its Condition holds, a step is the one the decoder selects: the Conditions exclude each other (R88). -/
theorem decodeAt_of_stepCondition {i : Instr} {s : State} {v : Invocation} (hs : s.canStep v) (hc : stepCondition i s v) :
    decodeAt v s = .ok i := by
  obtain ⟨-, hl⟩ := hs
  have hdata : ∀ k, stepCondition (dataInstr k) s v → decodeAt v s = .ok (dataInstr k) := by
    intro k hk
    obtain ⟨hst, heof, hclass, hroom⟩ := stepCondition_dataInstr.1 hk
    rw [decodeAt, hst]
    exact decode_data hl heof hclass hroom
  cases i with
  | preamble =>
    obtain ⟨hst, hpre⟩ := hc
    rw [decodeAt, hst]
    exact decode_preamble hl hpre
  | skip =>
    obtain ⟨hst, hpre⟩ := hc
    rw [decodeAt, hst]
    exact decode_skip hl hpre
  | eof =>
    obtain ⟨hst, heof⟩ := hc
    rw [decodeAt, hst]
    exact decode_eof hl heof
  | data00 => exact hdata 0#2 hc
  | data01 => exact hdata 1#2 hc
  | data10 => exact hdata 2#2 hc
  | data11 => exact hdata 3#2 hc
  | corruptOvf =>
    obtain ⟨hst, heof, ⟨k, hclass⟩, hfull⟩ := hc
    rw [decodeAt, hst]
    exact decode_corruptOvf hl heof hclass hfull
  | corrupt =>
    obtain ⟨hst, heof, hclass⟩ := hc
    rw [decodeAt, hst]
    exact decode_corrupt hl heof hclass
  | reset => exact hc.elim
  | process new => exact hc.elim

/-- Each decoder step is guarded by its Condition (R87). -/
theorem exec_eq_guarded {i : Instr} (hi : i ∈ decoderSteps) (s : State) :
    ∃ cond act, exec i s = guarded cond act s ∧ ∀ v, cond v = true ↔ stepCondition i s v := by
  rw [mem_decoderSteps] at hi
  rcases hi with rfl | rfl | rfl | rfl | rfl | rfl | rfl | rfl | rfl
  all_goals
    refine ⟨_, _, rfl, fun v => ?_⟩
    simp [stepCondition, dataCondition, and_assoc, Option.isSome_iff_exists]

/-- A decoder step tried where its Condition does not hold is refused (log entry 16). -/
theorem exec_of_not_stepCondition {i : Instr} {s : State} {v : Invocation} (hi : i ∈ decoderSteps) (hs : s.canStep v)
    (hc : ¬ stepCondition i s v) : exec i s = .refused .conditionNotMet := by
  obtain ⟨cond, act, hexec, hcond⟩ := exec_eq_guarded hi s
  rw [hexec, guarded_canStep hs, if_neg (mt (hcond v).1 hc)]

/-- A decoder step tried where its Condition holds and its marker has a place answers the state of its rule. -/
theorem exec_of_stepCondition {i : Instr} {s : State} {v : Invocation} (hs : s.canStep v) (hc : stepCondition i s v)
    (hf : stepFits i s v) : exec i s = .next (afterStep i v s) :=
  (exec_decoderStep (mem_decoderSteps_of_stepCondition hc)).2 ⟨v, hs, hc, hf, rfl⟩

/-! ### One step of the machine, in an invocation -/

theorem step_of_decodeAt {i : Instr} {s : State} {v : Invocation} (hv : s.inv = some v) (hd : decodeAt v s = .ok i) :
    step s = exec i s := by
  obtain ⟨-, hl, -⟩ := stepCondition_of_decodeAt hd
  simp [step, hv, hl, hd]

/-- The step is the selected one's next state, where its marker has a place (R40, R88). -/
theorem step_eq_afterStep {i : Instr} {s : State} {v : Invocation} (hs : s.canStep v) (hf : markerFits s v)
    (hd : decodeAt v s = .ok i) : step s = .next (afterStep i v s) ∧ exec i s = .next (afterStep i v s) := by
  have hexec := exec_of_stepCondition hs (stepCondition_of_decodeAt hd).2.2 fun _ => hf
  exact ⟨(step_of_decodeAt hs.1 hd).trans hexec, hexec⟩

theorem step_of_lookahead_missing {s : State} {v : Invocation} (hv : s.inv = some v) (hl : v.window.length < s.cur + 8) :
    step s = .next (closeInvocation v s) := by
  have hl' : ¬ s.cur + 8 ≤ v.window.length := Nat.not_le_of_lt hl
  simp [step, hv, hl']

/-! ### The next state of SKIP and of the Data steps -/

/-- SKIP moves the cursor alone (R90). -/
theorem afterStep_skip {s : State} {v : Invocation} (hv : s.inv = some v) (hst : s.st = .seekingPreamble) :
    afterStep .skip v s = { s with cur := s.cur + 1 } := by
  simp [afterStep, stepAdvance, stepNextState, stepBuffer, stepMarker, hv, hst]

/-- A Data step marks and pushes its code and stays in its decoder state (R92). -/
theorem afterStep_dataInstr (k : Code) {s : State} (v : Invocation) (hst : s.st = .receivingData) :
    afterStep (dataInstr k) v s = { s with
      cur := s.cur + 8
      fb := s.fb ++ [k]
      trace := traceAfter s.cur (dataMarker k) v s
      inv := some { v with ann := annAfter s.cur (dataMarker k) v } } := by
  simp [afterStep, traceAfter, dataInstr_ne_eof, hst]

/-- The number of a Data symbol's marker is `4 + k` (R56, R92). -/
theorem dataMarker_code (k : Code) : (dataMarker k).code = 4#3 + k.setWidth 3 := by
  revert k; decide

/-! ### A run without a Preamble -/

/-- A run of decoder steps from a seeking state over a window in which no Preamble begins is a run of SKIPs: to its end it moves the
cursor alone, one sample per window (R90). -/
theorem Decodes.eq_of_quiet {n : Nat} {s t : State} {v : Invocation} (h : Decodes n s t) (hv : s.inv = some v)
    (hst : s.st = .seekingPreamble) (hquiet : ∀ off, s.cur ≤ off → matchAt v.window off s.cfg.catalog.pre = false)
    (hend : v.window.length < t.cur + 8) : t = { s with cur := max s.cur (v.window.length - 7) } := by
  induction h with
  | refl s =>
    have hcur : max s.cur (v.window.length - 7) = s.cur := by omega
    rw [hcur]
  | @step n s t v' i hv' hd hf h ih =>
    obtain rfl : v' = v := Option.some.inj (hv'.symm.trans hv)
    obtain ⟨-, hl, -⟩ := stepCondition_of_decodeAt hd
    have hskip : decodeAt v' s = .ok .skip := decodeAt_of_stepCondition ⟨hv, hl⟩ ⟨hst, hquiet s.cur le_rfl⟩
    obtain rfl : i = .skip := by
      rw [hskip] at hd
      cases hd
      rfl
    rw [afterStep_skip hv hst] at ih
    have hcur : max s.cur (v'.window.length - 7) = max (s.cur + 1) (v'.window.length - 7) := by omega
    rw [ih hv hst (fun off hoff => hquiet off (Nat.le_of_succ_le hoff)) hend, hcur]

end Sys2Proof.Machine

open Sys2Proof Sys2Proof.Machine

/-- Settles O14: the Condition of the step that the dispatch names holds, and the decoder would select any other whose Condition
held. -/
theorem exactlyOneStepIsSelected : Obligations.ExactlyOneStepIsSelected := by
  unfold Obligations.ExactlyOneStepIsSelected
  intro s v hs hf i
  have hd : decodeAt v s = .ok i := by
    obtain ⟨-, hl⟩ := hs
    cases hst : s.st with
    | seekingPreamble =>
      cases hpre : matchAt v.window s.cur s.cfg.catalog.pre <;> simp [i, decodeAt, decode, hl, hst, hpre]
    | receivingData =>
      cases heof : matchAt v.window s.cur s.cfg.catalog.eof with
      | true => simp [i, decodeAt, decode, hl, hst, heof]
      | false =>
        cases hclass : classify s.cfg v.window s.cur with
        | none => simp [i, decodeAt, decode, hl, hst, heof, hclass]
        | some k =>
          by_cases hroom : s.fb.length < s.cfg.frameCap <;> simp [i, decodeAt, decode, hl, hst, heof, hclass, hroom]
  refine ⟨decode_mem hd, ⟨_, step_eq_afterStep hs hf hd⟩, fun j hj hne => exec_of_not_stepCondition hj hs fun hc => hne ?_⟩
  have hok := (decodeAt_of_stepCondition hs hc).symm.trans hd
  exact Except.ok.inj hok

/-- Settles O20: with eight samples left the decoder selects a step, whose marker has its place; otherwise the invocation ends. -/
theorem noStepFails : Obligations.NoStepFails := by
  unfold Obligations.NoStepFails
  intro s v hinv hv
  obtain ⟨-, hmem, -⟩ := hinv
  by_cases hl : s.cur + 8 ≤ v.window.length
  · obtain ⟨i, hd⟩ : ∃ i, decodeAt v s = .ok i := decode_total hl
    obtain ⟨hstep, -⟩ := step_eq_afterStep ⟨hv, hl⟩ (markerFits_of_wf ⟨hv, hl⟩ hmem) hd
    exact ⟨_, hstep⟩
  · exact ⟨_, step_of_lookahead_missing hv (Nat.lt_of_not_le hl)⟩

/-- Settles O47: the run of PROCESS moves the cursor alone, so the end of the invocation delivers what its opening made. -/
theorem noPreambleNoSymbol : Obligations.NoPreambleNoSymbol := by
  unfold Obligations.NoPreambleNoSymbol
  intro s t new hinv hidle hst hquiet hexec
  obtain ⟨-, -, hseek, htail, hcur⟩ := hinv
  simp only [State.windowLen, hidle] at hcur
  obtain ⟨a, b, v, w, n, hopen, hv, hwindow, hchunk, -, hann, hreps, hrun, hw, hend, rfl⟩ := execProcess_run hexec
  obtain ⟨-, -, -, -, rfl⟩ := openInvocation_eq_next.1 hopen
  obtain rfl := hrun.eq_of_quiet hv hst (by rw [hwindow]; exact hquiet) hend
  obtain rfl : v = w := Option.some.inj (hv.symm.trans hw)
  have hlen : v.window.length = s.tail.length + new.length := by rw [hwindow, List.length_append]
  refine ⟨hst, hseek hst, rfl, by rw [closeInvocation_delivered, hann, hreps], ?_⟩
  simp only [base_eq, closeInvocation_total, closeInvocation_tail, closeInvocation_cur, lastN_length, tailMax, hchunk]
  -- the tail save and the re-base move the base by the samples before the last seven
  have hmoved : s.total + new.length - 7 = s.total - s.tail.length + (v.window.length - 7) := by omega
  have hbase : s.total + new.length - min 7 v.window.length = s.total + new.length - 7 := by omega
  have hlost : v.window.length - min 7 v.window.length = v.window.length - 7 := by omega
  rw [hbase, hlost, hmoved]
  omega

/-- Settles O52: the Preamble's own match rules out EOF and the Data patterns, which leaves CORRUPT. -/
theorem preambleInsideAFrameIsLost : Obligations.PreambleInsideAFrameIsLost := by
  unfold Obligations.PreambleInsideAFrameIsLost
  refine ⟨fun s v hs hf hg hapart hne hst hpre => ?_, by decide, by decide, by decide⟩
  have hcond : stepCondition .corrupt s v := ⟨hst, eof_classify_of_matchAt_pre hg hapart hne hpre⟩
  have hd := decodeAt_of_stepCondition hs hcond
  exact ⟨hd, _, (step_eq_afterStep hs hf hd).1, rfl, rfl, rfl⟩

/-- Settles O6: a decoded window has its eight samples, so the step executes. -/
theorem stepRunsTheDecodedInstruction : Obligations.StepRunsTheDecodedInstruction := by
  unfold Obligations.StepRunsTheDecodedInstruction
  exact fun _ _ _ => step_of_decodeAt

/-- Settles O8, by PREAMBLE's row of R53. -/
theorem preambleResult : Obligations.PreambleResult := by
  unfold Obligations.PreambleResult
  exact fun s v hs hf hst hpre => exec_of_stepCondition (i := .preamble) hs ⟨hst, hpre⟩ fun _ => hf

/-- Settles O9, by SKIP's row of R53; SKIP has no marker that would need a place. -/
theorem skipResult : Obligations.SkipResult := by
  unfold Obligations.SkipResult
  intro s v hs hst hpre
  rw [← afterStep_skip hs.1 hst]
  exact exec_of_stepCondition hs ⟨hst, hpre⟩ fun h => absurd rfl h

/-- Settles O10, by EOF's row of R53. -/
theorem eofResult : Obligations.EofResult := by
  unfold Obligations.EofResult
  exact fun s v hs hf hst heof => exec_of_stepCondition (i := .eof) hs ⟨hst, heof⟩ fun _ => hf

/-- Settles O11: the four rows are one, with the code as its parameter. -/
theorem dataResult : Obligations.DataResult := by
  unfold Obligations.DataResult
  intro s v i k m hrow hs hf hst heof hclass hroom
  obtain ⟨rfl, rfl⟩ : i = dataInstr k ∧ m = dataMarker k := by
    simp only [List.mem_cons, Prod.mk.injEq, List.not_mem_nil, or_false] at hrow
    rcases hrow with ⟨rfl, rfl, rfl⟩ | ⟨rfl, rfl, rfl⟩ | ⟨rfl, rfl, rfl⟩ | ⟨rfl, rfl, rfl⟩ <;> exact ⟨rfl, rfl⟩
  refine ⟨dataMarker_code k, ?_⟩
  rw [← afterStep_dataInstr k v hst]
  exact exec_of_stepCondition hs (stepCondition_dataInstr.2 ⟨hst, heof, hclass, hroom⟩) fun _ => hf

/-- Settles O12, by CORRUPT's row of R53. -/
theorem corruptResult : Obligations.CorruptResult := by
  unfold Obligations.CorruptResult
  exact fun s v hs hf hst heof hclass => exec_of_stepCondition (i := .corrupt) hs ⟨hst, heof, hclass⟩ fun _ => hf

/-- Settles O13, by CORRUPT.OVF's row of R53; a buffer at its capacity has no room. -/
theorem overflowResult : Obligations.OverflowResult := by
  unfold Obligations.OverflowResult
  exact fun s v k hs hf hst heof hclass hfull =>
    exec_of_stepCondition (i := .corruptOvf) hs ⟨hst, heof, ⟨k, hclass⟩, hfull.not_lt⟩ fun _ => hf

end

section
/-! The obligations of the chunk stitcher: PROCESS whole and step by step, independence from the chunking, and the annotation. -/

namespace Sys2Proof.Machine

/-! ### Opening and stepping -/

/-- A chunk the host may send opens its invocation (R104, R136). -/
theorem openInvocation_of_wf {s : State} {new : List Sample} (hidle : s.inv = none) (hstarted : s.started = true)
    (hwf : (Instr.process new).wf s.cfg = true) :
    openInvocation new s = .next { s with
      inv := some { chunk := new, tailLen0 := s.tail.length, window := s.tail ++ new,
                    ann := List.replicate new.length .none, reps := [] } } := by
  obtain ⟨hlen, hfit⟩ : new.length ≤ s.cfg.chunkMax ∧ samplesFit s.cfg new = true := by simpa [Instr.wf] using hwf
  exact openInvocation_eq_next.2 ⟨hidle, hstarted, hlen, hfit, rfl⟩

theorem step_of_idle {s : State} (hidle : s.inv = none) (hp : s.pending = []) : step s = .next s := by
  simp [step, hidle, hp]

theorem step_of_reset_pending {s : State} {rest : List HostCommand} (hidle : s.inv = none) (hp : s.pending = .reset :: rest) :
    step s = exec .reset { s with pending := rest } := by
  simp [step, hidle, hp]

theorem step_of_process_pending {s : State} {new : List Sample} {rest : List HostCommand} (hidle : s.inv = none)
    (hp : s.pending = .process new :: rest) : step s = openInvocation new { s with pending := rest } := by
  simp [step, hidle, hp]

/-- A decoder step tried where fewer than eight samples are left is refused (R87; log entry 16). -/
theorem exec_of_lookahead_missing {i : Instr} {s : State} {v : Invocation} (hi : i ∈ decoderSteps) (hv : s.inv = some v)
    (hl : v.window.length < s.cur + 8) : exec i s = .refused .lookaheadMissing := by
  obtain ⟨cond, act, hexec, -⟩ := exec_eq_guarded hi s
  have hl' : ¬ s.cur + frameLen ≤ v.window.length := Nat.not_le_of_lt hl
  simp only [hexec, guarded, hv, if_neg hl']

/-! ### Runs of the machine -/

theorem run_succ_of_step {s t : State} (h : step s = .next t) (k : Nat) :
    Host.Core.run core (k + 1) s = Host.Core.run core k t := by
  have hcore : core.step s = .next t := h
  simp only [Host.Core.run, hcore]

/-- Each decoder step of a run is one step of the machine (R88). -/
theorem run_add_of_decodes {n : Nat} {s t : State} (h : Decodes n s t) (k : Nat) :
    Host.Core.run core (n + k) s = Host.Core.run core k t := by
  induction h with
  | refl s => rw [Nat.zero_add]
  | @step n s t v i hv hd hf h ih =>
    obtain ⟨-, hl, hc⟩ := stepCondition_of_decodeAt hd
    have hstep : step s = .next (afterStep i v s) :=
      (step_of_decodeAt hv hd).trans (exec_of_stepCondition ⟨hv, hl⟩ hc hf)
    rw [Nat.add_right_comm, run_succ_of_step hstep, ih]

/-! ### PROCESS, whole -/

/-- What PROCESS leaves alone, and what it hands over (R103, R111). -/
theorem execProcess_frame {s t : State} {new : List Sample} (h : exec (.process new) s = .next t) :
    t.cfg = s.cfg ∧ t.started = s.started ∧ t.pending = s.pending ∧ t.inv = none ∧ t.total = s.total + new.length ∧
    ∃ d, t.delivered = s.delivered ++ [d] ∧ d.ann.length = new.length := by
  obtain ⟨a, b, v, w, n, hopen, hv, -, hchunk, -, hann, -, hrun, hw, -, rfl⟩ := execProcess_run h
  obtain ⟨-, -, -, -, rfl⟩ := openInvocation_eq_next.1 hopen
  obtain ⟨fcfg, fstarted, -, ftotal, fpending, fdelivered, -, -, w', hw', fchunk, -, -, fann⟩ := hrun.frame hv
  obtain rfl : w = w' := Option.some.inj (hw.symm.trans hw')
  refine ⟨fcfg, fstarted, fpending, rfl, ?_, { ann := w.ann, reps := w.reps }, ?_, ?_⟩
  · rw [closeInvocation_total, ftotal, fchunk, hchunk]
  · rw [closeInvocation_delivered, fdelivered]
  · rw [fann, hann, List.length_replicate]

/-- PROCESS keeps the invariant: its opening, its decoder steps and its end do. -/
theorem inv_execProcess {s t : State} {new : List Sample} (h : exec (.process new) s = .next t) (hinv : s.Inv) : t.Inv := by
  obtain ⟨a, b, v, w, n, hopen, hv, -, -, -, -, -, hrun, hw, -, rfl⟩ := execProcess_run h
  exact inv_closeInvocation hw (hrun.keeps_inv hv (inv_openInvocation hopen hinv))

/-- A run never goes back (R99). -/
theorem AbsRun.pos_le {g : Config} {r r' : List Sample} {x x' : Abs} (h : AbsRun g r x r' x') : x.pos ≤ x'.pos := by
  induction h with
  | stop => exact le_rfl
  | step _ _ _ ih => exact (Nat.le_add_right _ _).trans ih

theorem processLoop_of_lookahead_missing {s : State} {v : Invocation} (hv : s.inv = some v)
    (hl : v.window.length < s.cur + 8) (fuel : Nat) : processLoop fuel s = .next s := by
  cases fuel with
  | zero => rfl
  | succ fuel =>
    have hl' : ¬ s.cur + frameLen ≤ v.window.length := Nat.not_le_of_lt hl
    simp only [processLoop, hv, if_neg hl']

/-- An empty chunk closes the invocation it has opened, at once (R113 (a)). -/
theorem exec_process_nil {s : State} (hidle : s.inv = none) (hstarted : s.started = true) (htail : s.tail.length ≤ 7) :
    exec (.process []) s = .next { s with delivered := s.delivered ++ [{ ann := [], reps := [] }] } := by
  have hopen := openInvocation_of_wf hidle hstarted (new := []) (by simp [Instr.wf, samplesFit])
  rw [execProcess_eq_next]
  refine ⟨_, _, hopen, processLoop_of_lookahead_missing rfl ?_ _, ?_⟩
  · simp only [List.append_nil]
    omega
  · simp [finishInvocation, closeInvocation, lastN, hidle, htail]

/-! ### Sequences of PROCESS commands (R114) -/

/-- Any tail and total that R24 (b) allows come from some stream. -/
theorem exists_follows {s : State} (htail : s.tail.length = min 7 s.total) : ∃ xs, s.follows xs := by
  refine ⟨List.replicate (s.total - s.tail.length) 0 ++ s.tail, follows_iff.2 ⟨?_, ?_⟩⟩
  · have hdrop : (List.replicate (s.total - s.tail.length) 0 ++ s.tail).length - tailMax =
        (List.replicate (s.total - s.tail.length) 0).length := by
      simp only [List.length_append, List.length_replicate, tailMax]
      omega
    rw [lastN, hdrop, List.drop_left]
  · simp only [List.length_append, List.length_replicate]
    omega

/-- A sequence of PROCESS commands is one run over all their samples, however they are cut. -/
theorem runChunks_absRun {s t : State} {cs : List (List Sample)} (hinv : s.Inv) (hidle : s.inv = none)
    (h : runChunks cs s = .next t) (pre : List Report) :
    ∃ ds, t.delivered = s.delivered ++ ds ∧
      AbsRun s.cfg ((s.tail ++ cs.flatten).drop s.cur) (s.abs s.base pre) (t.tail.drop t.cur)
        (t.abs t.base (pre ++ reportsOf ds)) := by
  induction cs generalizing s pre with
  | nil =>
    cases h
    obtain ⟨-, -, -, htail, -⟩ := hinv
    refine ⟨[], (List.append_nil _).symm, ?_⟩
    simp only [List.flatten_nil, List.append_nil, reportsOf, List.flatMap_nil]
    exact .stop (by rw [List.length_drop]; omega)
  | cons c cs ih =>
    obtain ⟨u, hu, hrest⟩ := bindNext_eq_next.1 h
    obtain ⟨d, hdelivered, hfirst⟩ := execProcess_absRun hinv hu pre
    obtain ⟨fcfg, -, -, fidle, -⟩ := execProcess_frame hu
    have huinv := inv_execProcess hu hinv
    obtain ⟨ds, hdelivered', hnext⟩ := ih huinv fidle hrest (pre ++ d.reps)
    obtain ⟨hcfg, -, -, -, hcur⟩ := hinv
    obtain ⟨-, -, -, -, hucur⟩ := huinv
    simp only [State.windowLen, hidle] at hcur
    simp only [State.windowLen, fidle] at hucur
    refine ⟨d :: ds, by rw [hdelivered', hdelivered, List.append_assoc, List.singleton_append], ?_⟩
    rw [fcfg, List.drop_append_of_le_length hucur] at hnext
    rw [List.flatten_cons, ← List.append_assoc,
      List.drop_append_of_le_length (by rw [List.length_append]; omega), reportsOf, List.flatMap_cons, ← List.append_assoc]
    exact hfirst.append hcfg hnext

/-! ### The annotation (R57, R110, R115) -/

theorem stepAnn_of_marker {i : Instr} {m : Marker} (hm : stepMarker i = some m) (v : Invocation) (s : State) :
    stepAnn i v s = annAfter s.cur m v := by
  simp [stepAnn, hm]

theorem stepAnn_of_no_marker {i : Instr} (hm : stepMarker i = none) (v : Invocation) (s : State) : stepAnn i v s = v.ann := by
  simp [stepAnn, hm]

/-- An annotation whose first entry belongs to the absolute position `origin` shows those of the markers `es` that have an entry, and
nothing else. -/
def Shows (ann : List Marker) (origin : Nat) (es : List (Nat × Marker)) : Prop :=
  ∀ (j : Nat) (k : Marker), k ≠ .none → (ann[j]? = some k ↔ (origin + j, k) ∈ es)

theorem shows_replicate_none (n origin : Nat) : Shows (List.replicate n .none) origin [] := by
  intro j k hk
  rw [List.getElem?_replicate]
  split <;> simp [hk.symm]

/-- `emit` shows its marker, at a position that had none, where the position has an entry (R110). -/
theorem shows_annAfter {v : Invocation} {c origin : Nat} {m : Marker} {es : List (Nat × Marker)}
    (hfits : v.tailLen0 ≤ c → c - v.tailLen0 < v.ann.length) (horigin : v.tailLen0 ≤ origin)
    (hfresh : ∀ e ∈ es, e.1 ≠ origin - v.tailLen0 + c) (h : Shows v.ann origin es) :
    Shows (annAfter c m v) origin (es ++ [(origin - v.tailLen0 + c, m)]) := by
  intro j k hk
  rw [List.mem_append, List.mem_singleton, Prod.mk.injEq]
  by_cases hj : j + v.tailLen0 = c
  · have hpos : origin + j = origin - v.tailLen0 + c := by omega
    have hplace : j = c - v.tailLen0 := by omega
    have hnew : (origin - v.tailLen0 + c, k) ∉ es := fun he => hfresh _ he rfl
    have hself := annAfter_getElem?_self c m v (by omega) (hfits (by omega))
    rw [hplace, hself, ← hplace, Option.some.injEq]
    simp only [hnew, hpos, false_or, true_and, eq_comm]
  · have hpos : origin + j ≠ origin - v.tailLen0 + c := by omega
    rw [annAfter_getElem?_ne c m v j hj, h j k hk]
    simp [hpos]

/-- In `s`, inside its invocation `v`: the markers since the trace was `tr` are `es`. Their windows lie before the cursor and end in
the window, and the annotation shows them. -/
structure MarkersSince (tr es : List (Nat × Marker)) (s : State) (v : Invocation) : Prop where
  trace : s.trace = tr ++ es
  placed : ∀ e ∈ es, ∃ c, e.1 = s.total - v.tailLen0 + c ∧ c < s.cur ∧ c + 8 ≤ v.window.length
  shown : Shows v.ann s.total es

theorem MarkersSince.after {tr es : List (Nat × Marker)} {i : Instr} {s : State} {v : Invocation}
    (h : MarkersSince tr es s v) (hd : decodeAt v s = .ok i) (hf : stepFits i s v) (horigin : v.tailLen0 ≤ s.total) :
    ∃ es', MarkersSince tr es' (afterStep i v s) { v with ann := stepAnn i v s, reps := stepReports i v s } := by
  obtain ⟨hi, hl, -⟩ := stepCondition_of_decodeAt hd
  have hmoves : s.cur < (afterStep i v s).cur := Nat.lt_add_of_pos_right (stepAdvance_pos hi)
  have hold : ∀ e ∈ es, ∃ c, e.1 = s.total - v.tailLen0 + c ∧ c < (afterStep i v s).cur ∧ c + 8 ≤ v.window.length := by
    intro e he
    obtain ⟨c, hpos, hbefore, hends⟩ := h.placed e he
    exact ⟨c, hpos, hbefore.trans hmoves, hends⟩
  cases hm : stepMarker i with
  | none =>
    refine ⟨es, ?_, hold, ?_⟩
    · simp [afterStep, hm, h.trace]
    · rw [stepAnn_of_no_marker hm]
      exact h.shown
  | some m =>
    refine ⟨es ++ [(s.total - v.tailLen0 + s.cur, m)], ?_, ?_, ?_⟩
    · simp [afterStep, hm, h.trace]
    · rw [List.forall_mem_append, List.forall_mem_singleton]
      exact ⟨hold, s.cur, rfl, hmoves, hl⟩
    · have hfresh : ∀ e ∈ es, e.1 ≠ s.total - v.tailLen0 + s.cur := by
        intro e he
        obtain ⟨c, hpos, hbefore, -⟩ := h.placed e he
        omega
      rw [stepAnn_of_marker hm]
      exact shows_annAfter (hf (by simp [hm])) horigin hfresh h.shown

/-- A run of decoder steps keeps the annotation in line with the trace. -/
theorem Decodes.markersSince {n : Nat} {s t : State} {tr es : List (Nat × Marker)} {v w : Invocation} (hrun : Decodes n s t)
    (hv : s.inv = some v) (hw : t.inv = some w) (horigin : v.tailLen0 ≤ s.total) (h : MarkersSince tr es s v) :
    ∃ es', MarkersSince tr es' t w := by
  induction hrun generalizing v es with
  | refl s =>
    obtain rfl : v = w := Option.some.inj (hv.symm.trans hw)
    exact ⟨es, h⟩
  | step hv' hd hf _ ih =>
    obtain rfl := Option.some.inj (hv.symm.trans hv')
    obtain ⟨es', h'⟩ := h.after hd hf horigin
    exact ih (afterStep_inv _ _ _) hw horigin h'

end Sys2Proof.Machine

open Sys2Proof Sys2Proof.Machine

/-- Settles O41: the opening, the run of decoder steps and the end are steps of the machine; the run has no more steps than the window
has samples, seven and the chunk's. -/
theorem stepsCarryOutProcess : Obligations.StepsCarryOutProcess := by
  unfold Obligations.StepsCarryOutProcess
  intro s t new rest hinv hidle hp hexec
  obtain ⟨-, -, -, htail, hcur⟩ := hinv
  simp only [State.windowLen, hidle] at hcur
  obtain ⟨a, b, v, w, n, hopen, hv, hwindow, -, -, -, -, hrun, hw, hend, rfl⟩ := execProcess_run hexec
  have hfirst : step s = .next a := (step_of_process_pending hidle hp).trans hopen
  obtain ⟨-, -, -, -, rfl⟩ := openInvocation_eq_next.1 hopen
  obtain ⟨-, -, -, -, -, -, fmoved, fcur, w', hw', -, -, fwindow, -⟩ := hrun.frame hv
  obtain rfl : w = w' := Option.some.inj (hw.symm.trans hw')
  have hlen : v.window.length = s.tail.length + new.length := by rw [hwindow, List.length_append]
  have hlast : step b = .next (closeInvocation w b) := step_of_lookahead_missing hw (by rw [fwindow]; exact hend)
  refine ⟨n + 1 + 1, ?_, ?_⟩
  · have hinside := fcur (by simp only; omega)
    simp only at fmoved
    omega
  · rw [run_succ_of_step hfirst, run_add_of_decodes hrun, run_succ_of_step hlast]
    rfl

/-- Settles O43: both cuttings are one run over the same samples (R114), and the tail and the total follow the same stream. -/
theorem chunkingDoesNotMatter : Obligations.ChunkingDoesNotMatter := by
  unfold Obligations.ChunkingDoesNotMatter
  intro s t u cs ds hinv hidle hflatten ht hu
  obtain ⟨dt, htd, htrun⟩ := runChunks_absRun hinv hidle ht []
  obtain ⟨du, hud, hurun⟩ := runChunks_absRun hinv hidle hu []
  rw [hflatten] at htrun
  obtain ⟨-, hsame⟩ := htrun.unique hurun
  simp only [State.abs, List.nil_append, Abs.mk.injEq] at hsame
  obtain ⟨hst, hfb, hpos, htrace, hreps⟩ := hsame
  obtain ⟨-, -, -, hlen, -⟩ := hinv
  obtain ⟨xs, hxs⟩ := exists_follows hlen
  obtain ⟨httail, httotal⟩ := follows_runChunks hxs ht
  obtain ⟨hutail, hutotal⟩ := follows_runChunks hxs hu
  rw [hflatten] at httail httotal
  have htail : t.tail = u.tail := httail.trans hutail.symm
  have htotal : t.total = u.total := httotal.trans hutotal.symm
  have hbase : t.base = u.base := by rw [base_eq, base_eq, htail, htotal]
  have hcur : t.cur = u.cur := Nat.add_left_cancel (hbase ▸ hpos)
  refine ⟨htrace, ?_, hst, hfb, htotal, htail, hcur, hpos⟩
  rw [htd, hud, List.drop_left, List.drop_left, hreps]

/-- Settles O45: the opening's annotation shows no marker, and every decoder step keeps it in line with the trace. -/
theorem annotationShowsTheMarkersOfThisChunk : Obligations.AnnotationShowsTheMarkersOfThisChunk := by
  unfold Obligations.AnnotationShowsTheMarkersOfThisChunk
  intro s t new hinv _ _ hexec
  obtain ⟨-, -, -, htail, -⟩ := hinv
  obtain ⟨a, b, v, w, n, hopen, hv, hwindow, -, hprefix, hann, -, hrun, hw, -, rfl⟩ := execProcess_run hexec
  obtain ⟨-, -, -, -, rfl⟩ := openInvocation_eq_next.1 hopen
  obtain ⟨-, -, -, ftotal, -, fdelivered, -, -, w', hw', -, fprefix, fwindow, fann⟩ := hrun.frame hv
  obtain rfl : w = w' := Option.some.inj (hw.symm.trans hw')
  have hopened : MarkersSince s.trace [] { s with inv := some v } v :=
    ⟨(List.append_nil _).symm, by simp, hann ▸ shows_replicate_none _ _⟩
  obtain rfl := Option.some.inj hv
  obtain ⟨es, htrace, hplaced, hshown⟩ := hrun.markersSince hv hw (by simp only; omega) hopened
  refine ⟨{ ann := w.ann, reps := w.reps }, es, by rw [closeInvocation_delivered, fdelivered], htrace, ?_, ?_, ?_⟩
  · rw [fann, List.length_replicate]
  · intro e he
    obtain ⟨c, hpos, -, hends⟩ := hplaced e he
    rw [ftotal, fprefix] at hpos
    rw [fwindow, List.length_append] at hends
    simp only at hpos
    omega
  · rw [ftotal] at hshown
    exact hshown

/-- Settles O40: its run never goes back, and its parts keep the invariant, which bounds what is left by the seven samples of the
tail. -/
theorem processCompletes : Obligations.ProcessCompletes := by
  unfold Obligations.ProcessCompletes
  intro s new hinv hidle hstarted hwf
  obtain ⟨t, ht⟩ := execProcess_total hinv hidle hstarted hwf
  obtain ⟨fcfg, fstarted, fpending, fidle, ftotal, d, fdelivered, fann⟩ := execProcess_frame ht
  obtain ⟨_, -, hrun⟩ := execProcess_absRun hinv ht []
  have htinv := inv_execProcess ht hinv
  have hleft : t.total < t.base + t.cur + 8 := by
    obtain ⟨-, -, -, htail, -⟩ := htinv
    rw [base_eq]
    omega
  exact ⟨t, d, ht, htinv, fidle, fcfg, fstarted.trans hstarted, fpending, execProcess_tail ht, ftotal, hrun.pos_le, hleft,
    fdelivered, fann⟩

/-- Settles O42: the window is the tail, too short for a decoder step and saved whole. -/
theorem emptyChunkChangesNothing : Obligations.EmptyChunkChangesNothing := by
  unfold Obligations.EmptyChunkChangesNothing
  intro s hinv hidle hstarted
  obtain ⟨-, hmem, -⟩ := hinv
  exact exec_process_nil hidle hstarted ((memory_wf_idle hidle).1 hmem).1

/-- Settles O5, by the three cases of the host's list. -/
theorem stepTakesTheNextCommand : Obligations.StepTakesTheNextCommand := by
  unfold Obligations.StepTakesTheNextCommand
  refine fun s hidle => ⟨step_of_idle hidle, fun rest => step_of_reset_pending hidle, fun new rest hp hstarted hwf => ?_⟩
  exact (step_of_process_pending hidle hp).trans (openInvocation_of_wf hidle hstarted hwf)

/-- Settles O7: the step ends the invocation, and each decoder step's guard asks for the eight samples. -/
theorem stepEndsTheInvocation : Obligations.StepEndsTheInvocation := by
  unfold Obligations.StepEndsTheInvocation
  exact fun s v hv hl => ⟨step_of_lookahead_missing hv hl, fun i hi => exec_of_lookahead_missing hi hv hl⟩

end

section
/-! The obligations of reset and hazards: what the host may not do, frames one straight after another, and the last samples of the
input. -/

namespace Sys2Proof

/-- A pattern that the window is too short for does not match (R64). -/
theorem matchAt_eq_false_of_length_lt {W : List Sample} {off : Nat} {pat : List Sample} (h : W.length < off + pat.length) :
    matchAt W off pat = false :=
  Bool.eq_false_iff.2 fun hm => Nat.not_le_of_lt h (matchAt_iff_take.1 hm).1

end Sys2Proof

namespace Sys2Proof.Machine

/-! ### PROCESS refused (R136) -/

theorem exec_reset_of_busy {s : State} {v : Invocation} (hv : s.inv = some v) :
    exec .reset s = .refused .commandWhileBusy := by
  simp [exec, execReset, hv]

/-- PROCESS is refused for the reason its opening is. -/
theorem exec_process_of_open_refused {s : State} {new : List Sample} {r : Refusal}
    (h : openInvocation new s = .refused r) : exec (.process new) s = .refused r := by
  simp only [exec, execProcess, h, bindNext_refused]

theorem openInvocation_of_busy {s : State} {v : Invocation} (hv : s.inv = some v) (new : List Sample) :
    openInvocation new s = .refused .commandWhileBusy := by
  simp [openInvocation, hv]

theorem openInvocation_of_too_long {s : State} {new : List Sample} (hidle : s.inv = none) (hstarted : s.started = true)
    (hlen : s.cfg.chunkMax < new.length) : openInvocation new s = .refused .chunkTooLong := by
  simp [openInvocation, hidle, hstarted, hlen]

theorem openInvocation_of_not_samplesFit {s : State} {new : List Sample} (hidle : s.inv = none)
    (hstarted : s.started = true) (hlen : new.length ≤ s.cfg.chunkMax) (hfit : samplesFit s.cfg new = false) :
    openInvocation new s = .refused .sampleOutOfRange := by
  simp [openInvocation, hidle, hstarted, Nat.not_lt_of_le hlen, hfit]

/-- One sample that is no code of the instance spoils its chunk (R45). -/
theorem samplesFit_eq_false {g : Config} {xs : List Sample} {x : Sample} (hx : x ∈ xs) (hbig : 2 ^ g.sampleW ≤ x) :
    samplesFit g xs = false :=
  List.all_eq_false.2 ⟨x, hx, by simpa using hbig⟩

/-! ### A chunk of fewer than eight samples (R115, R140) -/

/-- A window of a short chunk begins in the carry-over prefix, so a decoder step on it leaves the annotation alone (R110). -/
theorem stepAnn_of_short {i : Instr} {s : State} {v : Invocation} (hl : s.cur + 8 ≤ v.window.length)
    (hshort : v.window.length < v.tailLen0 + 8) : stepAnn i v s = v.ann := by
  have hprefix : ¬ v.tailLen0 ≤ s.cur := by omega
  unfold stepAnn
  cases stepMarker i with
  | none => rfl
  | some m => exact if_neg hprefix

theorem Decodes.ann_of_short {n : Nat} {s t : State} {v w : Invocation} (h : Decodes n s t) (hv : s.inv = some v)
    (hw : t.inv = some w) (hshort : v.window.length < v.tailLen0 + 8) : w.ann = v.ann := by
  induction h generalizing v with
  | refl s => rw [Option.some.inj (hv.symm.trans hw)]
  | step hv' hd hf _ ih =>
    obtain rfl := Option.some.inj (hv.symm.trans hv')
    exact (ih (afterStep_inv _ _ _) hw hshort).trans (stepAnn_of_short (stepCondition_of_decodeAt hd).2.1 hshort)

theorem execProcess_delivered_of_short {s t : State} {new : List Sample} (h : exec (.process new) s = .next t)
    (hnew : new.length < 8) :
    ∃ reps, t.delivered = s.delivered ++ [{ ann := List.replicate new.length .none, reps := reps }] := by
  obtain ⟨a, b, v, w, n, hopen, hv, hwindow, -, hprefix, hann, -, hrun, hw, -, rfl⟩ := execProcess_run h
  obtain ⟨-, -, -, -, rfl⟩ := openInvocation_eq_next.1 hopen
  obtain ⟨-, -, -, -, -, fdelivered, -⟩ := hrun.frame hv
  have hsame := hrun.ann_of_short hv hw (by rw [hwindow, hprefix, List.length_append]; omega)
  exact ⟨w.reps, by rw [closeInvocation_delivered, fdelivered, hsame, hann]⟩

/-! ### Frames one straight after another (R144) -/

/-- The core after frames of the symbols `kss`, with nothing between them. -/
def Abs.afterFrames (x : Abs) (kss : List (List Code)) : Abs := kss.foldl Abs.afterFrame x

@[simp] theorem Abs.afterFrames_nil (x : Abs) : x.afterFrames [] = x := rfl

@[simp] theorem Abs.afterFrames_cons (x : Abs) (ks : List Code) (kss : List (List Code)) :
    x.afterFrames (ks :: kss) = (x.afterFrame ks).afterFrames kss := rfl

@[simp] theorem Abs.afterFrame_st (x : Abs) (ks : List Code) : (x.afterFrame ks).st = .seekingPreamble := rfl

@[simp] theorem Abs.afterFrame_fb (x : Abs) (ks : List Code) : (x.afterFrame ks).fb = [] := rfl

theorem Abs.afterFrames_st {x : Abs} (hst : x.st = .seekingPreamble) (kss : List (List Code)) :
    (x.afterFrames kss).st = .seekingPreamble := by
  induction kss generalizing x with
  | nil => exact hst
  | cons ks kss ih => exact ih (x.afterFrame_st ks)

theorem Abs.afterFrames_fb {x : Abs} (hfb : x.fb = []) (kss : List (List Code)) : (x.afterFrames kss).fb = [] := by
  induction kss generalizing x with
  | nil => exact hfb
  | cons ks kss ih => exact ih (x.afterFrame_fb ks)

/-- Each frame adds the report of its own symbols, since the one before has emptied the buffer (R80, R91). -/
theorem Abs.afterFrames_reps {x : Abs} (hfb : x.fb = []) (kss : List (List Code)) :
    (x.afterFrames kss).reps = x.reps ++ kss.map finalize := by
  induction kss generalizing x with
  | nil => simp
  | cons ks kss ih =>
    rw [Abs.afterFrames_cons, ih (x.afterFrame_fb ks), Abs.afterFrame_reps, hfb]
    simp

/-- Frames within the capacity are decoded one straight after another: each ends where the next begins, and what follows it gives its
EOF the look-ahead (R106, R144). -/
theorem AbsRun.frames {g : Config} {r r' : List Sample} {x x' : Abs} {kss : List (List Code)} (hg : g.wf = true)
    (hapart : g.catalog.eofApart = true) (hst : x.st = .seekingPreamble) (hfb : x.fb = [])
    (hcap : ∀ ks ∈ kss, ks.length ≤ g.frameCap) (hr : 4 ≤ r.length) (hrun : AbsRun g r (x.afterFrames kss) r' x') :
    AbsRun g (kss.flatMap (frameOfSymbols g) ++ r) x r' x' := by
  induction kss generalizing x with
  | nil => exact hrun
  | cons ks kss ih =>
    obtain ⟨hks, hkss⟩ := List.forall_mem_cons.1 hcap
    rw [List.flatMap_cons, List.append_assoc]
    refine .frame hg hapart hst (by simpa [hfb] using hks) ?_ (ih (x.afterFrame_st ks) (x.afterFrame_fb ks) hkss hrun)
    rw [List.length_append]
    omega

/-- Where no Preamble begins before an index that fewer than eight samples follow, none begins at all. -/
theorem State.quietUntil.quiet {s : State} {W : List Sample} {n : Nat} (hg : s.cfg.wf = true) (h : s.quietUntil W n)
    (hend : W.length < n + 8) (off : Nat) (hoff : s.cur ≤ off) : matchAt W off s.cfg.catalog.pre = false := by
  by_cases hlt : off < n
  · exact h off hlt hoff
  · exact matchAt_eq_false_of_length_lt (by rw [(s.cfg.wf_parts hg).pre_length]; omega)

/-! ### A frame that is cut before its look-ahead (R139 (b)) -/

/-- A frame with nothing after it is decoded up to its EOF, which is left for want of look-ahead (R106). -/
theorem AbsRun.frame_without_lookahead {g : Config} {x : Abs} {ks : List Code} (hg : g.wf = true)
    (hapart : g.catalog.eofApart = true) (hst : x.st = .seekingPreamble) (hcap : x.fb.length + ks.length ≤ g.frameCap) :
    AbsRun g (frameOfSymbols g ks) x g.catalog.eof ((x.after .preamble).afterSymbols ks) := by
  have parts := g.wf_parts hg
  have hsymbols : AbsRun g (symbolSamples g ks ++ g.catalog.eof) (x.after .preamble) g.catalog.eof _ :=
    .symbols hg hapart rfl hcap (.stop (by rw [parts.eof_length]; decide))
  rw [frameOfSymbols, List.append_assoc]
  exact .of_encode (i := .preamble) hg hapart rfl parts.pre_length hst (by rw [parts.pre_length]; omega) nofun (by simp) hsymbols

/-- Four samples after an EOF left under the cursor bring its report; its marker falls in the carry-over prefix (R115, R139 (b)). -/
theorem execProcess_four_after_eof {t : State} {la : List Sample} (hinv : t.Inv) (hidle : t.inv = none)
    (hstarted : t.started = true) (hwf : (Instr.process la).wf t.cfg = true) (hapart : t.cfg.catalog.eofApart = true)
    (hst : t.st = .receivingData) (hleft : t.tail.drop t.cur = t.cfg.catalog.eof) (hla : la.length = 4) :
    ∃ u, exec (.process la) t = .next u ∧ u.st = .seekingPreamble ∧ u.fb = [] ∧
      u.delivered = t.delivered ++ [{ ann := List.replicate 4 .none, reps := [finalize t.fb] }] := by
  obtain ⟨u, hu⟩ := execProcess_total hinv hidle hstarted hwf
  obtain ⟨d, hdelivered, habs⟩ := execProcess_absRun hinv hu []
  obtain ⟨reps, hshort⟩ := execProcess_delivered_of_short hu (by omega)
  obtain ⟨hg, -, -, -, hcur⟩ := hinv
  simp only [State.windowLen, hidle] at hcur
  rw [List.drop_append_of_le_length hcur, hleft] at habs
  have parts := t.cfg.wf_parts hg
  have hrun : AbsRun t.cfg (t.cfg.catalog.eof ++ la) (t.abs t.base []) la ((t.abs t.base []).after .eof) :=
    .of_encode (i := .eof) hg hapart rfl parts.eof_length hst (by rw [parts.eof_length]; omega) nofun (by simp)
      (.stop (by omega))
  obtain ⟨-, hafter⟩ := habs.unique hrun
  have hd : d = { ann := List.replicate la.length .none, reps := reps } := by
    simpa using hdelivered.symm.trans hshort
  have hreps : d.reps = [finalize t.fb] := congrArg Abs.reps hafter
  refine ⟨u, hu, congrArg Abs.st hafter, congrArg Abs.fb hafter, ?_⟩
  rw [hd] at hreps
  rw [hshort, hla, ← hreps]

end Sys2Proof.Machine

open Sys2Proof Sys2Proof.Machine

/-- Settles O50: after the lead-in's SKIPs the run takes the frames one by one. With no frame, fewer than eight samples follow the
lead-in, so that no Preamble begins at all. -/
theorem consecutiveFramesAreDecoded : Obligations.ConsecutiveFramesAreDecoded := by
  unfold Obligations.ConsecutiveFramesAreDecoded
  intro s lead kss la hinv hidle hstarted hst hapart hcap hla new hwf hquiet
  have ⟨hg, _, hseek, _, _⟩ := hinv
  have hfb : s.fb = [] := hseek hst
  cases kss with
  | nil =>
    obtain ⟨t, ht⟩ := execProcess_total hinv hidle hstarted hwf
    have hend : (s.tail ++ new).length < s.tail.length + lead.length + 8 := by
      simp only [new, List.flatMap_nil, List.append_nil, List.length_append]
      omega
    obtain ⟨htst, htfb, -, hdelivered, -⟩ := noPreambleNoSymbol s t new hinv hidle hst (hquiet.quiet hg hend) ht
    exact ⟨t, _, ht, htst, htfb, hdelivered, rfl⟩
  | cons ks kss =>
    have hnew : new = lead ++ ((ks :: kss).flatMap (frameOfSymbols s.cfg) ++ la) := List.append_assoc ..
    rw [hnew] at hwf hquiet ⊢
    have hrest : 7 ≤ ((ks :: kss).flatMap (frameOfSymbols s.cfg) ++ la).length := by
      have hframe := eight_le_frameOfSymbols_length hg ks
      simp only [List.flatMap_cons, List.length_append]
      omega
    have hrun : AbsRun s.cfg ((ks :: kss).flatMap (frameOfSymbols s.cfg) ++ la)
        { s.abs s.base [] with pos := s.total + lead.length } la _ :=
      .frames hg hapart hst hfb hcap hla.ge (.stop (by omega))
    obtain ⟨t, d, ht, hdelivered, -, hd⟩ := execProcess_of_absRun_after_lead hinv hidle hstarted hst hwf hquiet hrest hrun
    exact ⟨t, d, ht, (congrArg Abs.st hd).trans (Abs.afterFrames_st hst _), (congrArg Abs.fb hd).trans (Abs.afterFrames_fb hfb _),
      hdelivered, (congrArg Abs.reps hd).trans (Abs.afterFrames_reps hfb _)⟩

/-- Settles O46: every window of such a chunk begins in the carry-over prefix. -/
theorem shortChunkDeliversNoMarker : Obligations.ShortChunkDeliversNoMarker := by
  unfold Obligations.ShortChunkDeliversNoMarker
  exact fun s t new _ _ _ hnew h => execProcess_delivered_of_short h hnew

/-- Settles O51: the first run leaves the EOF under the cursor, and the second, over it and the four samples, takes it. -/
theorem eofWaitsForFourMoreSamples : Obligations.EofWaitsForFourMoreSamples := by
  unfold Obligations.EofWaitsForFourMoreSamples
  intro s lead ks hinv hidle hstarted hst hapart hcap new hwf hquiet
  have ⟨hg, _, hseek, _, _⟩ := hinv
  have hfb : s.fb = [] := hseek hst
  have hframe := eight_le_frameOfSymbols_length hg ks
  have hrun : AbsRun s.cfg (frameOfSymbols s.cfg ks) { s.abs s.base [] with pos := s.total + lead.length } _ _ :=
    .frame_without_lookahead hg hapart hst (by simpa [State.abs, hfb] using hcap)
  obtain ⟨t, d, ht, hdelivered, hleft, hd⟩ := execProcess_of_absRun_after_lead hinv hidle hstarted hst hwf hquiet
    (by omega) hrun
  obtain ⟨fcfg, fstarted, -, fidle, -⟩ := execProcess_frame ht
  have htst : t.st = .receivingData := (congrArg Abs.st hd).trans (Abs.afterSymbols_st ks rfl)
  have htfb : t.fb = ks := by
    have hbuffer := (congrArg Abs.fb hd).trans (Abs.afterSymbols_fb _ ks)
    simpa [State.abs, Abs.after, stepBuffer, hfb] using hbuffer
  refine ⟨t, d, ht, htst, htfb, hdelivered, (congrArg Abs.reps hd).trans (Abs.afterSymbols_reps _ ks), fun la hla hfit => ?_⟩
  have hwfla : (Instr.process la).wf s.cfg = true := by
    obtain ⟨hmax, -⟩ : new.length ≤ s.cfg.chunkMax ∧ samplesFit s.cfg new = true := by simpa [Instr.wf] using hwf
    have hlong : 4 ≤ new.length := by simp only [new, List.length_append]; omega
    simp only [Instr.wf, hfit, Bool.and_true, decide_eq_true_eq, hla]
    exact hlong.trans hmax
  rw [← htfb]
  exact execProcess_four_after_eof (inv_execProcess ht hinv) fidle (fstarted.trans hstarted) (fcfg ▸ hwfla) (fcfg ▸ hapart) htst
    (fcfg ▸ hleft) hla

/-- Settles O4, by the four reasons for which a PROCESS does not open. -/
theorem hostDutiesAreRefused : Obligations.HostDutiesAreRefused := by
  unfold Obligations.HostDutiesAreRefused
  refine ⟨fun s new hidle hs => exec_process_of_not_started hidle hs new, fun s v new hv => ?_, fun s new hidle hs hlen => ?_,
    fun s new x hidle hs hlen hx hbig => ?_⟩
  · exact ⟨exec_process_of_open_refused (openInvocation_of_busy hv new), exec_reset_of_busy hv⟩
  · exact exec_process_of_open_refused (openInvocation_of_too_long hidle hs hlen)
  · exact exec_process_of_open_refused (openInvocation_of_not_samplesFit hidle hs hlen (samplesFit_eq_false hx hbig))

/-- Settles O30, by trying the 17 offsets of each of the 64 runs of three symbols. -/
theorem falsePreambleOnlyAtAFrameEnd : Obligations.FalsePreambleOnlyAtAFrameEnd := by
  unfold Obligations.FalsePreambleOnlyAtAFrameEnd
  decide +kernel

end
